-- ==== Sys2Proof/Word.lean ====
section
/-!
DEFINITION. The word types of the block (spec/00_scope.md R7: an N-bit value is an unsigned integer below 2^N, bit 0 the
least significant). The block has no signed value.
-/
namespace Sys2Proof

/-- A byte: FEED's and EXPECT's operand, one byte of a chunk (30_encoding.md R51). -/
abbrev Byte := BitVec 8

/-- A command word on `cmd[15:0]`, and the status word on `status_out[15:0]` (00_scope.md R6). -/
abbrev CmdWord := BitVec 16

/-- A 32-bit value: `ACC`, `EXP`, a crc, a chunk's length field (00_scope.md R5). -/
abbrev Word32 := BitVec 32

end Sys2Proof
end

