-- ==== Sys2Proof/Config.lean ====
section
/-!
DEFINITION. What the block fixes (spec/00_scope.md R5 and R6), and the one value the spec leaves open.
-/
namespace Sys2Proof.Config

/-- `CRC_WIDTH` (R5). -/
def crcWidth : Nat := 32

/-- `POLY`, the polynomial of the CKSUM CRC-32 in normal form (R2, R5). -/
def poly : Word32 := 0x04C11DB7#32

/-- `POLY_R`, which is `reflect_32(POLY)` (R5, R9). -/
def polyR : Word32 := 0xEDB88320#32

/-- `INIT`, the initial register value (R5). -/
def crcInit : Word32 := 0xFFFFFFFF#32

/-- `REFIN`, input reflected (R5). -/
def refIn : Bool := true

/-- `REFOUT`, output reflected (R5). -/
def refOut : Bool := true

/-- `XOROUT`, the final XOR (R5). -/
def xorOut : Word32 := 0xFFFFFFFF#32

/-- `CMD_WIDTH`, the bits of a command word (R6). -/
def cmdWidth : Nat := 16

/-- Bytes absorbed per FEED (R6). -/
def bytesPerFeed : Nat := 1

/-- `EXP_BYTES`, the length of the expected-crc field (R6), as `EXP_CNT` counts it. -/
def expBytes : BitVec 3 := 4#3

/-- `STATUS_WIDTH`, the bits of `status_out` (R6). -/
def statusWidth : Nat := 16

/-- FREE VALUE (log entry 5; DESIGN CHOICE, safe): what `EXP_CNT` holds after an EXPECT that finds it at 7. The rule writes
`EXP_CNT + 1`, which no 3-bit value is, and no rule says what the register then holds. Nothing constrains the value: it may
depend on everything the block holds (`ACC`, `EXP`, the status word, R31) and on the byte. It arises only from a
`POWER_ON_STATE` before the first reset (R132). -/
opaque expCntPastSeven (acc exp : Word32) (status : CmdWord) (b : Byte) : BitVec 3

end Sys2Proof.Config
end

