-- ==== Sys2Proof/Syntax.lean ====
section
/-!
DEFINITION. The commands of the block, one constructor per row of spec/opcode_table.json (30_encoding.md R52).
-/
namespace Sys2Proof

/-- One command. Every 16-bit word is one (30_encoding.md R55). -/
inductive Instr where
  /-- NOP (40_crc_commands.md R70). -/
  | nop
  /-- INIT starts a new checksum (R71). -/
  | init
  /-- FEED b absorbs one byte of the checked stream (R72). -/
  | feed (b : Byte)
  /-- EXPECT b absorbs one byte of the stored crc field (R73). -/
  | expect (b : Byte)
  /-- CHECK compares the running CRC with the expected crc (R74). -/
  | check
  /-- A reserved word (R75): any word 30_encoding.md R54 lists. -/
  | reserved (w : CmdWord)
  deriving DecidableEq, Repr

end Sys2Proof
end

