-- ==== Sys2Proof/WellFormed.lean ====
section
/-!
DEFINITION. Which terms of `Instr` are commands of the block. The only check is that the word of `reserved` is one of the
three cases spec/30_encoding.md R54 lists; every operand byte of FEED and EXPECT is admitted (00_scope.md R3).
-/
namespace Sys2Proof

/-- R54, first case: `OP` is in 0x5 to 0xF. -/
def opUnassigned (w : CmdWord) : Bool := decide (0x5000 ≤ w.toNat)

/-- R54, second case: `OP` is in 0x0 to 0x4 and `Z` is not 0. -/
def zNonzero (w : CmdWord) : Bool := decide (w.toNat < 0x5000 ∧ w.toNat / 0x100 % 0x10 ≠ 0)

/-- R54, third case: `OP` is 0x0, 0x1 or 0x4 and `B` is not 0. -/
def bNonzero (w : CmdWord) : Bool :=
  decide (w.toNat / 0x1000 = 0 ∨ w.toNat / 0x1000 = 1 ∨ w.toNat / 0x1000 = 4) && decide (w.toNat % 0x100 ≠ 0)

/-- The reserved words (R54), written from R54's three cases and not from the decoder. -/
def isReserved (w : CmdWord) : Bool := opUnassigned w || zNonzero w || bNonzero w

/-- A term is a command of the block: the word of `reserved` is a reserved one. -/
def WellFormed (i : Instr) : Bool :=
  match i with
  | .nop => true
  | .init => true
  | .feed _ => true
  | .expect _ => true
  | .check => true
  | .reserved w => isReserved w

end Sys2Proof
end

