-- ==== Sys2Proof/Decode.lean ====
section
/-!
DEFINITION. Decoding and encoding of command words (spec/30_encoding.md R50 to R55). Decoding is total: a word that is no
command is `reserved`, by name, never a NOP (R54).
-/
namespace Sys2Proof

/-- `OP`, bits [15:12] (R50). -/
def opField (w : CmdWord) : BitVec 4 := w.extractLsb' 12 4

/-- `Z`, bits [11:8], which must be 0 (R50). -/
def zField (w : CmdWord) : BitVec 4 := w.extractLsb' 8 4

/-- `B`, bits [7:0], the byte operand (R50). -/
def bField (w : CmdWord) : Byte := w.extractLsb' 0 8

/-- The decoder of R55, line by line. -/
def decode (w : CmdWord) : Instr :=
  if zField w ≠ 0x0#4 then .reserved w
  else if opField w = 0x0#4 ∧ bField w = 0x00#8 then .nop
  else if opField w = 0x1#4 ∧ bField w = 0x00#8 then .init
  else if opField w = 0x2#4 then .feed (bField w)
  else if opField w = 0x3#4 then .expect (bField w)
  else if opField w = 0x4#4 ∧ bField w = 0x00#8 then .check
  else .reserved w

/-- A word from its three fields (R50). -/
def packWord (op z : BitVec 4) (b : Byte) : CmdWord := op ++ z ++ b

/-- The encoder, from the opcode map of R52; a reserved word is itself. -/
def encode (i : Instr) : CmdWord :=
  match i with
  | .nop => packWord 0x0#4 0x0#4 0x00#8
  | .init => packWord 0x1#4 0x0#4 0x00#8
  | .feed b => packWord 0x2#4 0x0#4 b
  | .expect b => packWord 0x3#4 0x0#4 b
  | .check => packWord 0x4#4 0x0#4 0x00#8
  | .reserved w => w

/-- The command word whose lowest `nbits` bits are those of `w` and whose other bits are 0: one parallel word, bit 0 least
significant, with no byte order (20_memory.md R45). -/
def tableWord (nbits w : Nat) : CmdWord := BitVec.ofNat 16 (w % 2 ^ nbits)

/-- The command the decoder reads from a table row's bits. Every command is one 16-bit word (R50), so a row of more bits
than that is none (log entry 11). -/
def decodeTableWord (nbits w : Nat) : Option Instr :=
  if Config.cmdWidth < nbits then none else some (decode (tableWord nbits w))

end Sys2Proof
end

