-- ==== Sys2Proof/Machine/Crc.lean ====
section
/-!
DEFINITION. The checksum (spec/40_crc_commands.md section 1): `reflect_N`, the parameter model `CRC(M)`, the datapath
`CrcStep` and its table form. Only the datapath is used by the commands; R67 says it computes the parameter model.
-/
namespace Sys2Proof.Machine

/-- `reflect_N(v)`: bit `N-1-i` is `v[i]` (00_scope.md R9). -/
def reflect {n : Nat} (v : BitVec n) : BitVec n := v.reverse

/-- One iteration of R65's inner loop, on the register in normal form. -/
def normalShift (reg : Word32) : Word32 :=
  if reg.getLsbD 31 then (reg <<< 1) ^^^ Config.poly else reg <<< 1

/-- R65's outer loop body: one byte enters the top of the register. -/
def normalStep (reg : Word32) (b : Byte) : Word32 :=
  let bb : Byte := if Config.refIn then reflect b else b
  normalShift^[8] (reg ^^^ (bb.setWidth 32 <<< 24))

/-- The register of R65 after its loop over `m`. -/
def regOf (m : List Byte) : Word32 := m.foldl normalStep Config.crcInit

/-- `CRC(M)`, the normative definition (R65). -/
def crc (m : List Byte) : Word32 :=
  (if Config.refOut then reflect (regOf m) else regOf m) ^^^ Config.xorOut

/-- One iteration of R66's loop, on the register in reflected form. -/
def reflectedShift (a : Word32) : Word32 :=
  if a.getLsbD 0 then (a >>> 1) ^^^ Config.polyR else a >>> 1

/-- `CrcStep(acc, b)`: the datapath absorbs one byte, zero-extended (R66, 30_encoding.md R51). -/
def crcStep (acc : Word32) (b : Byte) : Word32 := reflectedShift^[8] (acc ^^^ b.setWidth 32)

/-- `ACC_M`: `CrcStep` folded over `m` from `INIT` (R67). -/
def accOf (m : List Byte) : Word32 := m.foldl crcStep Config.crcInit

/-- `T[n]`, the table of R68. -/
def crcTable (n : Byte) : Word32 := crcStep 0x00000000#32 n

/-- The table form of `CrcStep` (R68). -/
def tableStep (acc : Word32) (b : Byte) : Word32 :=
  (acc >>> 8) ^^^ crcTable ((acc ^^^ b.setWidth 32).extractLsb' 0 8)

end Sys2Proof.Machine
end

