-- ==== Sys2Proof/Machine/State.lean ====
section
/-!
DEFINITION. The state of the block, plain data (spec/10_state.md R20), what its ports take in, and the reasons a step can stop.
-/
namespace Sys2Proof.Machine

/-- Who drives the command port (20_memory.md R49). -/
inductive Agent where
  /-- The one host the spec admits. -/
  | host
  /-- Any second agent: "a model refuses a second one". -/
  | other
  deriving DecidableEq, Repr

/-- What the block takes in one step: one reset or one accepted command (R30, 70_reset_and_hazards.md R131). -/
inductive Input where
  /-- A rising edge with `rst = 1`. -/
  | reset
  /-- A rising edge at which the word `w` is accepted. -/
  | command (driver : Agent) (w : CmdWord)
  deriving DecidableEq, Repr

/-- The input ports as sampled at one rising edge of `clk` (R30). -/
structure Edge where
  /-- `rst`, synchronous, active high (70_reset_and_hazards.md R131). -/
  rst : Bool
  /-- `cmd_valid`. -/
  cmdValid : Bool
  /-- Who drives `cmd`. -/
  driver : Agent
  /-- `cmd[15:0]`. -/
  cmd : CmdWord
  deriving DecidableEq, Repr

/-- The four exceptions of the block (60_exceptions.md R111). -/
inductive Exc where
  /-- `ChecksumMismatch`, flag CKERR, raised by CHECK. -/
  | checksumMismatch
  /-- `TruncatedInput`, flag TRUNC, raised by CHECK. -/
  | truncatedInput
  /-- `ExpectOverrun`, flag OVR, raised by EXPECT. -/
  | expectOverrun
  /-- `IllegalCommand`, flag ILL, raised by a reserved word. -/
  | illegalCommand
  deriving DecidableEq, Repr

/-- The state: the nine elements of R20, and the stream the host has yet to present. -/
structure State where
  /-- `ACC`, the CRC register in reflected form (R21). -/
  acc : Word32
  /-- `EXP`, the expected crc (R23). -/
  exp : Word32
  /-- `EXP_CNT`, the crc-field bytes `EXP` has absorbed; 3 bits, so that 5 to 7 can be said of a power-on state (R24, R132). -/
  expCnt : BitVec 3
  /-- `DONE` (R25). -/
  done : Bool
  /-- `MATCH` (R25). -/
  matched : Bool
  /-- `CKERR` (R25). -/
  ckerr : Bool
  /-- `TRUNC` (R25). -/
  trunc : Bool
  /-- `OVR` (R25). -/
  ovr : Bool
  /-- `ILL` (R25). -/
  ill : Bool
  /-- The model's own field (log entry 1): what the host presents at the ports from here on, oldest first. The block stores no
  command (20_memory.md R48). -/
  input : List Input
  deriving DecidableEq, Repr

/-- The reasons the machine stops with a fault. There are none: raising an exception sets its flag and does nothing else
(60_exceptions.md R110), and every command has its effect in every state (log entry 15). -/
inductive Fault where
  deriving DecidableEq, Repr

/-- The reasons a step is refused. -/
inductive Refusal where
  /-- Raised by `exec` for an instruction without a meaning: no arm raises it. Safe: the model stops where the block goes on. -/
  | notModelled (mnemonic : String)
  /-- Raised by the step that would take a command of a second host: "This spec admits one host only, and a model refuses a
  second one" (20_memory.md R49). Safe: the model stops where hardware would go on (log entry 8). -/
  | secondHost
  deriving DecidableEq, Repr

/-- The state right after reset (70_reset_and_hazards.md R130), with nothing presented yet (log entry 1). -/
def State.reset : State where
  acc := Config.crcInit
  exp := 0x00000000#32
  expCnt := 0#3
  done := false
  matched := false
  ckerr := false
  trunc := false
  ovr := false
  ill := false
  input := []

/-- `POWER_ON_STATE`: the state before the first reset, which the model takes as an argument and of which it assumes nothing
(00_scope.md R6, 70_reset_and_hazards.md R132; log entry 4). -/
def State.powerOn (acc exp : Word32) (expCnt : BitVec 3) (done matched ckerr trunc ovr ill : Bool) (input : List Input) :
    State where
  acc := acc
  exp := exp
  expCnt := expCnt
  done := done
  matched := matched
  ckerr := ckerr
  trunc := trunc
  ovr := ovr
  ill := ill
  input := input

end Sys2Proof.Machine
end

