-- ==== Sys2Proof/Machine/Ports.lean ====
section
/-!
DEFINITION. The ports of the block (spec/10_state.md R29 and R30): the three outputs as functions of the state, the handshake,
and what one rising edge presents. Reading an output changes no state.
-/
namespace Sys2Proof.Machine

/-- `crc_out`, the running CRC; the final XOR is applied here and never in place (R29). -/
def crcOut (s : State) : Word32 := s.acc ^^^ Config.xorOut

/-- `exp_out` (R29). -/
def expOut (s : State) : Word32 := s.exp

/-- `status_out` (R29): 5 zero bits, `EXP_CNT`, 2 zero bits, then ILL, OVR, TRUNC, CKERR, MATCH, DONE. -/
def statusOut (s : State) : CmdWord :=
  0#5 ++ s.expCnt ++ 0#2 ++ BitVec.ofBool s.ill ++ BitVec.ofBool s.ovr ++ BitVec.ofBool s.trunc ++
    BitVec.ofBool s.ckerr ++ BitVec.ofBool s.matched ++ BitVec.ofBool s.done

/-- `cmd_ready`, always 1: the block never stalls (R30). -/
def cmdReady (_ : State) : Bool := true

/-- What a rising edge gives the block: a reset if `rst = 1`, whatever is presented beside it (70_reset_and_hazards.md R131);
otherwise the command, if it is valid and the block ready; otherwise nothing (R30, 30_encoding.md R58). -/
def sampleEdge (e : Edge) (s : State) : Option Input :=
  if e.rst then some .reset
  else if e.cmdValid && cmdReady s then some (.command e.driver e.cmd)
  else none

end Sys2Proof.Machine
end

