-- ==== Sys2Proof/Machine/Flags.lean ====
section
/-!
DEFINITION. Every condition under which a command sets a flag (spec/10_state.md R25, 40_crc_commands.md R73 and R74,
60_exceptions.md R111), and the count EXPECT writes.
-/
namespace Sys2Proof.Machine

/-- Four crc-field bytes and no overrun: the comparison counts (R74). -/
def comparable (s : State) : Bool := s.expCnt == Config.expBytes && !s.ovr

/-- MATCH after a CHECK (R74). -/
def matchCond (s : State) : Bool := comparable s && crcOut s == s.exp

/-- CKERR after a CHECK (R74): `ChecksumMismatch`. -/
def mismatchCond (s : State) : Bool := comparable s && crcOut s != s.exp

/-- TRUNC after a CHECK (R74): `TruncatedInput`. -/
def truncCond (s : State) : Bool := decide (s.expCnt < Config.expBytes)

/-- EXPECT finds four crc-field bytes already there (R73): `ExpectOverrun`. -/
def overrunCond (s : State) : Bool := s.expCnt == Config.expBytes

/-- `EXP_CNT + 1` (R73). At 7, which only a power-on state holds, the sum is no 3-bit value and the result is free
(log entry 5); at 5 and 6 the rule's pseudocode increments (log entry 6). -/
def nextCount (b : Byte) (s : State) : BitVec 3 :=
  if s.expCnt = 7#3 then Config.expCntPastSeven s.acc s.exp (statusOut s) b else s.expCnt + 1#3

end Sys2Proof.Machine
end

