-- ==== Sys2Proof/Machine/Operands.lean ====
section
/-!
DEFINITION. The one operand of the block, the byte `B`, in the two forms its commands take it (spec/30_encoding.md R51).
There are no register operands and no addressing modes (40_crc_commands.md R78).
-/
namespace Sys2Proof.Machine

/-- EXPECT shifts the byte unchanged into the low end of `EXP`; the byte in `EXP[31:24]` drops out (R51, 10_state.md R23). -/
def shiftInByte (exp : Word32) (b : Byte) : Word32 := exp.extractLsb' 0 24 ++ b

/-- A 32-bit value as its four bytes, most significant first: the order of the crc field (20_memory.md R43). -/
def bytesBE (v : Word32) : List Byte :=
  [v.extractLsb' 24 8, v.extractLsb' 16 8, v.extractLsb' 8 8, v.extractLsb' 0 8]

/-- The 32-bit value of four bytes in stream order, most significant first (20_memory.md R43, R44). -/
def wordBE (c0 c1 c2 c3 : Byte) : Word32 := c0 ++ c1 ++ c2 ++ c3

end Sys2Proof.Machine
end

