-- ==== Sys2Proof/Machine/Ops.lean ====
section
/-!
DEFINITION. The named operations over the state that the commands share: clearing and writing flags, raising an exception,
the register updates, reset, and taking the next input.
-/
namespace Sys2Proof.Machine

/-- DONE, MATCH, CKERR and TRUNC to 0, so that no verdict outlives a change of the stream (spec/40_crc_commands.md R72, R73). -/
def clearVerdict (s : State) : State := { s with done := false, matched := false, ckerr := false, trunc := false }

/-- The cause code of an exception: the bit index of its flag in `status_out` (60_exceptions.md R111). -/
def causeCode (e : Exc) : Nat :=
  match e with
  | .checksumMismatch => 2
  | .truncatedInput => 3
  | .expectOverrun => 4
  | .illegalCommand => 5

/-- TAKING AN EXCEPTION: its flag is set to 1 and nothing else happens: no transfer of control, nothing saved, no stall
(60_exceptions.md R110, 00_scope.md R8). There is no return from one (60_exceptions.md R117). -/
def raise (e : Exc) (s : State) : State :=
  match e with
  | .checksumMismatch => { s with ckerr := true }
  | .truncatedInput => { s with trunc := true }
  | .expectOverrun => { s with ovr := true }
  | .illegalCommand => { s with ill := true }

/-- Raise `e` if `c` holds. -/
def raiseWhen (c : Bool) (e : Exc) (s : State) : State := if c then raise e s else s

/-- INIT's writes (40_crc_commands.md R71): all but ILL. -/
def startChecksum (s : State) : State :=
  { clearVerdict s with acc := Config.crcInit, exp := 0x00000000#32, expCnt := 0#3, ovr := false }

/-- FEED's write of `ACC` (R72). -/
def absorbByte (b : Byte) (s : State) : State := { s with acc := crcStep s.acc b }

/-- EXPECT's writes of `EXP` and `EXP_CNT` while the field is not full (R73). Both read the state before the command. -/
def appendExpected (b : Byte) (s : State) : State := { s with exp := shiftInByte s.exp b, expCnt := nextCount b s }

/-- CHECK's writes of DONE and MATCH (R74). -/
def recordMatch (m : Bool) (s : State) : State := { s with done := true, matched := m }

/-- A reset step (70_reset_and_hazards.md R130, R131): every element at its reset value, whatever the state was. What the host
presents later is not the block's and stays. -/
def applyReset (s : State) : State := { State.reset with input := s.input }

/-- Fetching: the next input of the host's stream, and the state with the rest of it (10_state.md R27, 20_memory.md R47). -/
def takeInput (s : State) : Option (Input × State) :=
  match s.input with
  | [] => none
  | i :: rest => some (i, { s with input := rest })

/-- The host presents one command word as the very next input. -/
def presentWord (w : CmdWord) (s : State) : State := { s with input := .command .host w :: s.input }

end Sys2Proof.Machine
end

