-- ==== Sys2Proof/Machine/Checksum.lean ====
section
/-!
DEFINITION. The meanings of FEED, EXPECT and CHECK (spec/40_crc_commands.md R72 to R74).
-/
namespace Sys2Proof.Machine

/-- FEED b (R72): `ACC` absorbs the byte, and the verdict is cleared. -/
def execFeed (b : Byte) (s : State) : Host.Outcome State Fault Refusal := .next (clearVerdict (absorbByte b s))

/-- EXPECT b (R73): a fifth byte raises `ExpectOverrun` and leaves `EXP` and `EXP_CNT`; otherwise the byte is shifted in and
counted. The verdict is cleared either way. -/
def execExpect (b : Byte) (s : State) : Host.Outcome State Fault Refusal :=
  .next (clearVerdict (if overrunCond s then raise .expectOverrun s else appendExpected b s))

/-- CHECK (R74): DONE is set, MATCH is the comparison, and `ChecksumMismatch` or `TruncatedInput` is raised if its condition
holds of the state before the command; a flag whose condition does not hold is written 0. -/
def execCheck (s : State) : Host.Outcome State Fault Refusal :=
  .next (raiseWhen (truncCond s) .truncatedInput
    (raiseWhen (mismatchCond s) .checksumMismatch (recordMatch (matchCond s) (clearVerdict s))))

end Sys2Proof.Machine
end

