-- ==== Sys2Proof/Machine/Control.lean ====
section
/-!
DEFINITION. The meanings of NOP, INIT and the reserved words (spec/40_crc_commands.md R70, R71, R75).
-/
namespace Sys2Proof.Machine

/-- NOP (R70): in any state S, NOP leaves S. -/
def execNop (s : State) : Host.Outcome State Fault Refusal := .next s

/-- INIT (R71) starts a new checksum; ILL is not written. -/
def execInit (s : State) : Host.Outcome State Fault Refusal := .next (startChecksum s)

/-- A reserved word (R75) raises `IllegalCommand`; its fields have no meaning and all other state is unchanged. -/
def execReserved (_w : CmdWord) (s : State) : Host.Outcome State Fault Refusal := .next (raise .illegalCommand s)

end Sys2Proof.Machine
end

