-- ==== Sys2Proof/Machine/Dispatch.lean ====
section
/-! DEFINITION. One arm per constructor of `Instr`, each a direct call of its meaning. -/
namespace Sys2Proof.Machine

def exec (i : Instr) (s : State) : Host.Outcome State Fault Refusal :=
  match i with
  | .nop => Sys2Proof.Machine.execNop s
  | .init => Sys2Proof.Machine.execInit s
  | .feed b => Sys2Proof.Machine.execFeed b s
  | .expect b => Sys2Proof.Machine.execExpect b s
  | .check => Sys2Proof.Machine.execCheck s
  | .reserved w => Sys2Proof.Machine.execReserved w s

end Sys2Proof.Machine
end

