-- ==== Sys2Proof/Machine/Accept.lean ====
section
/-!
DEFINITION. What the block does with one input, and with one rising edge of its clock (spec/10_state.md R30,
70_reset_and_hazards.md R131).
-/
namespace Sys2Proof.Machine

/-- One input takes effect: a reset, or the decoded command of the one host. A second host's command is refused
(20_memory.md R49; log entry 8). -/
def react (i : Input) (s : State) : Host.Outcome State Fault Refusal :=
  match i with
  | .reset => .next (applyReset s)
  | .command .host w => exec (decode w) s
  | .command .other _ => .refused .secondHost

/-- One rising edge with the ports at `e`: what it presents takes effect, and an idle edge does nothing (R30). -/
def clockEdge (e : Edge) (s : State) : Host.Outcome State Fault Refusal :=
  match sampleEdge e s with
  | none => .next s
  | some i => react i s

end Sys2Proof.Machine
end

