-- ==== Sys2Proof/Machine/Step.lean ====
section
/-!
DEFINITION. The step of the machine: one accepted command or one reset (spec/10_state.md R30).
-/
namespace Sys2Proof.Machine

/-- The next input of the host's stream takes effect. Where the host presents nothing the block does nothing (R30; log entry 2). -/
def step (s : State) : Host.Outcome State Fault Refusal :=
  match takeInput s with
  | none => .next s
  | some (i, s') => react i s'

/-- The host presents the word with the bits of `w` as the very next command (log entry 3). -/
def State.withFetchWord (s : State) (nbits w : Nat) : State := presentWord (tableWord nbits w) s

end Sys2Proof.Machine
end

