-- ==== Sys2Proof/Machine/Procedures.lean ====
section
/-!
DEFINITION. How the host drives the block (spec/41_chunk_validation.md): issuing command words, the pseudo-instructions
(30_encoding.md R57), GENERATE and VERIFY, the encoded chunk, the host's own part of `parse`, and the reading of a verdict.
-/
namespace Sys2Proof.Machine

/-- The host presents one word and the block takes one step. -/
def issue (w : CmdWord) (s : State) : Host.Outcome State Fault Refusal := step (presentWord w s)

/-- The host issues command words one after the other: a "program" is a finite sequence of them (10_state.md R27). -/
def issueAll : List CmdWord → State → Host.Outcome State Fault Refusal
  | [], s => .next s
  | w :: ws, s =>
    match issue w s with
    | .next t => issueAll ws t
    | .fault r => .fault r
    | .refused r => .refused r

/-- The same for resets and commands of any agent, in the order they reach the block (70_reset_and_hazards.md R131). -/
def reactAll : List Input → State → Host.Outcome State Fault Refusal
  | [], s => .next s
  | i :: is, s =>
    match react i s with
    | .next t => reactAll is t
    | .fault r => .fault r
    | .refused r => .refused r

/-- `FEEDS` (R57): one FEED per byte, in order. -/
def feeds (m : List Byte) : List CmdWord := m.map fun b => encode (.feed b)

/-- One EXPECT per byte, in order. -/
def expects (m : List Byte) : List CmdWord := m.map fun b => encode (.expect b)

/-- `EXPECT32 v` (R57): the four bytes of `v`, most significant first. -/
def expect32 (v : Word32) : List CmdWord := expects (bytesBE v)

/-- `CRCOF s` (R57). -/
def crcOfWords (m : List Byte) : List CmdWord := encode .init :: feeds m

/-- `VERIFY s, v` (R57). -/
def verifyWords (m : List Byte) (v : Word32) : List CmdWord :=
  encode .init :: (feeds m ++ expect32 v ++ [encode .check])

/-- GENERATE (R92): INIT, then the 4 type bytes, then the data bytes. Its result is `crc_out` after the last FEED (R103). -/
def generateWords (tag data : List Byte) : List CmdWord := encode .init :: (feeds tag ++ feeds data)

/-- A chunk value of the source (R91). -/
structure Chunk where
  /-- The count of data bytes. -/
  length : Word32
  /-- The 4 type bytes. -/
  tag : List Byte
  /-- The payload. -/
  data : List Byte
  /-- The stored crc. -/
  crc : Word32
  deriving DecidableEq, Repr

/-- What every chunk value satisfies (R91): the crc is the checksum over type and data, the length counts the data. -/
def chunkValid (c : Chunk) : Bool :=
  decide (c.tag.length = 4) && c.crc == Sys2Proof.Machine.crc (c.tag ++ c.data) && decide (c.length.toNat = c.data.length)

/-- `serialize` (R93, R94): big-endian length, type bytes, data bytes, big-endian crc. -/
def serialize (c : Chunk) : List Byte := bytesBE c.length ++ c.tag ++ c.data ++ bytesBE c.crc

/-- `construct` (R92): the host runs GENERATE and stores the length and the crc. -/
def construct (tag data : List Byte) (s : State) : Host.Outcome (State × Chunk) Fault Refusal :=
  match issueAll (generateWords tag data) s with
  | .next t => .next (t, { length := BitVec.ofNat 32 data.length, tag := tag, data := data, crc := crcOut t })
  | .fault r => .fault r
  | .refused r => .refused r

/-- The host's reading of `status_out` after CHECK, one constructor per row of R97's table, and `unread` where no CHECK has
completed: reading a result before its procedure's last command has no meaning (R103). -/
inductive Verdict where
  /-- `ILL = 1`: a host programming fault; the verdict is not used. -/
  | hostFault
  /-- `MATCH = 1`: the crc is valid. -/
  | valid
  /-- `CKERR = 1`: `ChecksumMismatch`. -/
  | checksumMismatch
  /-- `TRUNC = 1`: `TruncatedInput`. -/
  | truncatedInput
  /-- `DONE = 1` and `OVR = 1`, no other verdict flag: the verdict is void. -/
  | void
  /-- No verdict to read. -/
  | unread
  deriving DecidableEq, Repr

/-- R97's table, read from the bits of the status word. -/
def readVerdict (status : CmdWord) : Verdict :=
  if status.getLsbD 5 then .hostFault
  else if status.getLsbD 1 then .valid
  else if status.getLsbD 2 then .checksumMismatch
  else if status.getLsbD 3 then .truncatedInput
  else if status.getLsbD 0 && status.getLsbD 4 then .void
  else .unread

/-- How a chunk parse fails (60_exceptions.md R114; the source's kinds are 90_conflicts.md C3's), and `hostFault` for a verdict
the host may not use (R97). -/
inductive ParseError where
  /-- `TruncatedInput`. -/
  | truncatedInput
  /-- `InvalidTag`, the ChunkType component's. -/
  | invalidTag
  /-- `ChecksumMismatch`. -/
  | checksumMismatch
  /-- A host programming fault or a void verdict: no outcome of the source. -/
  | hostFault
  deriving DecidableEq, Repr

/-- A type byte the ChunkType component accepts: `A` to `Z` or `a` to `z` (00_scope.md R3, 60_exceptions.md R114). The block
itself takes any byte. -/
def isTagByte (b : Byte) : Bool :=
  decide ((0x41 ≤ b.toNat ∧ b.toNat ≤ 0x5A) ∨ (0x61 ≤ b.toNat ∧ b.toNat ≤ 0x7A))

/-- The host's part of `parse` (R96) in R114's order: a buffer too short for length and type, an invalid tag, a buffer too
short for data and crc. Gives the chunk's fields, the crc field read big-endian, and the bytes after the chunk. -/
def frameChunk (buf : List Byte) : Except ParseError (Chunk × List Byte) :=
  match buf with
  | l0 :: l1 :: l2 :: l3 :: t0 :: t1 :: t2 :: t3 :: body =>
    if !(isTagByte t0 && isTagByte t1 && isTagByte t2 && isTagByte t3) then .error .invalidTag
    else
      match body.drop (wordBE l0 l1 l2 l3).toNat with
      | c0 :: c1 :: c2 :: c3 :: rest =>
        .ok ({ length := wordBE l0 l1 l2 l3, tag := [t0, t1, t2, t3], data := body.take (wordBE l0 l1 l2 l3).toNat,
               crc := wordBE c0 c1 c2 c3 }, rest)
      | _ => .error .truncatedInput
  | _ => .error .truncatedInput

/-- What the host reports for a verdict (R97). -/
def reportVerdict (v : Verdict) (c : Chunk) : Except ParseError Chunk :=
  match v with
  | .valid => .ok c
  | .checksumMismatch => .error .checksumMismatch
  | .truncatedInput => .error .truncatedInput
  | .hostFault => .error .hostFault
  | .void => .error .hostFault
  | .unread => .error .hostFault

/-- VERIFY (R95) on a framed chunk: INIT, FEEDs of type and data, four EXPECTs, CHECK; the result is read from `status_out`
after the CHECK (R103). -/
def verifyChunk (c : Chunk) (s : State) : Host.Outcome (State × Verdict) Fault Refusal :=
  match issueAll (verifyWords (c.tag ++ c.data) c.crc) s with
  | .next t => .next (t, readVerdict (statusOut t))
  | .fault r => .fault r
  | .refused r => .refused r

/-- `parse` of one encoded chunk at the head of a buffer (R95, R96): the block is not driven where the host's part fails. -/
def parseChunk (buf : List Byte) (s : State) :
    Host.Outcome (State × Except ParseError (Chunk × List Byte)) Fault Refusal :=
  match frameChunk buf with
  | .error e => .next (s, .error e)
  | .ok (c, rest) =>
    match verifyChunk c s with
    | .next (t, v) => .next (t, (reportVerdict v c).map fun c' => (c', rest))
    | .fault r => .fault r
    | .refused r => .refused r

/-- The chunks of a file, in file order, each with its own VERIFY; the first failure is the whole parse's failure (R104).
`fuel` bounds the chunks: bytes left over when it is spent are a truncated file. -/
def parseChunks : Nat → List Byte → State → Host.Outcome (State × Except ParseError (List Chunk)) Fault Refusal
  | 0, buf, s => .next (s, if buf.isEmpty then .ok [] else .error .truncatedInput)
  | fuel + 1, buf, s =>
    if buf.isEmpty then .next (s, .ok [])
    else
      match parseChunk buf s with
      | .fault r => .fault r
      | .refused r => .refused r
      | .next (t, .error e) => .next (t, .error e)
      | .next (t, .ok (c, rest)) =>
        match parseChunks fuel rest t with
        | .fault r => .fault r
        | .refused r => .refused r
        | .next (u, .error e) => .next (u, .error e)
        | .next (u, .ok cs) => .next (u, .ok (c :: cs))

/-- All chunks of a file after its signature (R104). A chunk takes at least 12 bytes, so the length is fuel enough. -/
def parseFile (buf : List Byte) (s : State) : Host.Outcome (State × Except ParseError (List Chunk)) Fault Refusal :=
  parseChunks buf.length buf s

end Sys2Proof.Machine
end

