-- ==== Sys2Proof/Machine/Assembler.lean ====
section
/-!
DEFINITION. The assembly syntax (spec/30_encoding.md R56 and R57): from a line of text to the command words it issues, and an
instruction as text. Characters stand for their ASCII codes. What R56 and R57 leave to the reader of a line (a line with
no command, blanks between tokens, the number of digits, `++` in a line) is the model's choice, log entry 12.
-/
namespace Sys2Proof.Machine

/-- One statement of the assembly: a command, the directive `.word`, or a pseudo-instruction (R56, R57). -/
inductive AsmLine where
  /-- NOP, INIT, CHECK, FEED or EXPECT. -/
  | instr (i : Instr)
  /-- `.word 0xNNNN`. -/
  | word (w : CmdWord)
  /-- `FEEDS s`. -/
  | feeds (m : List Byte)
  /-- `EXPECT32 v`. -/
  | expect32 (v : Word32)
  /-- `CRCOF s`. -/
  | crcOf (m : List Byte)
  /-- `VERIFY s, v`. -/
  | verify (m : List Byte) (v : Word32)
  deriving DecidableEq, Repr

/-- The words a statement issues (R56, R57). -/
def expandLine (l : AsmLine) : List CmdWord :=
  match l with
  | .instr i => [encode i]
  | .word w => [w]
  | .feeds m => Sys2Proof.Machine.feeds m
  | .expect32 v => Sys2Proof.Machine.expect32 v
  | .crcOf m => crcOfWords m
  | .verify m v => verifyWords m v

/-- A blank: space, tab or carriage return. -/
def isBlankChar (c : Char) : Bool := c.toNat == 32 || c.toNat == 9 || c.toNat == 13

/-- The text after its leading blanks. -/
def skipBlanks (cs : List Char) : List Char := cs.dropWhile isBlankChar

/-- A character of a mnemonic, a directive or a number. -/
def isTokenChar (c : Char) : Bool := c.isAlphanum || c.toNat == 46

/-- The value of a digit in hexadecimal. -/
def hexDigit (c : Char) : Option Nat :=
  let n := c.toNat
  if 48 ≤ n ∧ n ≤ 57 then some (n - 48)
  else if 65 ≤ n ∧ n ≤ 70 then some (n - 55)
  else if 97 ≤ n ∧ n ≤ 102 then some (n - 87)
  else none

/-- The value read so far, taken on by one digit; a digit outside the base is refused. -/
def digitStep (base : Nat) (acc : Option Nat) (c : Char) : Option Nat :=
  match acc, hexDigit c with
  | some a, some d => if d < base then some (a * base + d) else none
  | _, _ => none

/-- The value of a run of digits in a base. -/
def digitsValue (base : Nat) (cs : List Char) : Option Nat := cs.foldl (digitStep base) (some 0)

/-- The value of a number token: `0x` and hexadecimal digits, or decimal digits. -/
def tokenValue (tok : List Char) : Option Nat :=
  match tok with
  | [] => none
  | '0' :: 'x' :: d :: ds => digitsValue 16 (d :: ds)
  | ds => digitsValue 10 ds

/-- A number below `bound` at the head of the text, and the text after it. -/
def readNumber (bound : Nat) (cs : List Char) : Option (Nat × List Char) :=
  match tokenValue (cs.takeWhile isTokenChar) with
  | some v => if v < bound then some (v, cs.dropWhile isTokenChar) else none
  | none => none

/-- A byte operand: a character literal standing for its ASCII code, or a number below 256 (R56). Code 39 is the quote. -/
def readByte (cs : List Char) : Option (Byte × List Char) :=
  match cs with
  | q :: c :: q' :: rest =>
    if q.toNat == 39 then
      if q'.toNat == 39 ∧ c.toNat < 128 then some (BitVec.ofNat 8 c.toNat, rest) else none
    else (readNumber 256 cs).map fun r => (BitVec.ofNat 8 r.1, r.2)
  | _ => (readNumber 256 cs).map fun r => (BitVec.ofNat 8 r.1, r.2)

/-- The bytes of a bracketed list after its `[`, up to and including its `]`. -/
def readListItems : Nat → List Char → Option (List Byte × List Char)
  | 0, _ => none
  | fuel + 1, cs =>
    match readByte (skipBlanks cs) with
    | none => none
    | some (b, rest) =>
      match skipBlanks rest with
      | ']' :: rest' => some ([b], rest')
      | ',' :: rest' => (readListItems fuel rest').map fun r => (b :: r.1, r.2)
      | _ => none

/-- The bytes a text stands for: one ASCII code per character (00_scope.md R8). -/
def textBytes (cs : List Char) : List Byte := cs.map fun c => BitVec.ofNat 8 c.toNat

/-- One byte sequence: a bracketed list or a text between double quotes (code 34), one byte per ASCII code (R57). -/
def readSeqAtom (cs : List Char) : Option (List Byte × List Char) :=
  match cs with
  | [] => none
  | '[' :: rest =>
    match skipBlanks rest with
    | ']' :: rest' => some ([], rest')
    | _ => readListItems rest.length rest
  | q :: rest =>
    if q.toNat == 34 then
      let body := rest.takeWhile fun c => c.toNat != 34
      match rest.dropWhile fun c => c.toNat != 34 with
      | _ :: rest' => if body.all fun c => c.toNat < 128 then some (textBytes body, rest') else none
      | [] => none
    else none

/-- A byte sequence, with `++` between its parts (00_scope.md R8; that a line may hold it is the model's choice, log entry 12,
DESIGN CHOICE). -/
def readSeq : Nat → List Char → Option (List Byte × List Char)
  | 0, _ => none
  | fuel + 1, cs =>
    match readSeqAtom (skipBlanks cs) with
    | none => none
    | some (m, rest) =>
      match skipBlanks rest with
      | '+' :: '+' :: rest' => (readSeq fuel rest').map fun r => (m ++ r.1, r.2)
      | _ => some (m, rest)

/-- The operands of a statement, by its mnemonic, and the text after them. -/
def readOperands (mnemonic cs : List Char) : Option (AsmLine × List Char) :=
  if mnemonic = "NOP".toList then some (.instr .nop, cs)
  else if mnemonic = "INIT".toList then some (.instr .init, cs)
  else if mnemonic = "CHECK".toList then some (.instr .check, cs)
  else if mnemonic = "FEED".toList then (readByte (skipBlanks cs)).map fun r => (.instr (.feed r.1), r.2)
  else if mnemonic = "EXPECT".toList then (readByte (skipBlanks cs)).map fun r => (.instr (.expect r.1), r.2)
  else if mnemonic = ".word".toList then
    (readNumber 65536 (skipBlanks cs)).map fun r => (.word (BitVec.ofNat 16 r.1), r.2)
  else if mnemonic = "FEEDS".toList then (readSeq cs.length cs).map fun r => (.feeds r.1, r.2)
  else if mnemonic = "EXPECT32".toList then
    (readNumber 4294967296 (skipBlanks cs)).map fun r => (.expect32 (BitVec.ofNat 32 r.1), r.2)
  else if mnemonic = "CRCOF".toList then (readSeq cs.length cs).map fun r => (.crcOf r.1, r.2)
  else if mnemonic = "VERIFY".toList then
    match readSeq cs.length cs with
    | none => none
    | some (m, rest) =>
      match skipBlanks rest with
      | ',' :: rest' =>
        (readNumber 4294967296 (skipBlanks rest')).map fun r => (.verify m (BitVec.ofNat 32 r.1), r.2)
      | _ => none
  else none

/-- Nothing but blanks, or a comment from `;` to the end of the line (R56). -/
def isLineEnd (cs : List Char) : Bool :=
  match skipBlanks cs with
  | [] => true
  | c :: _ => c.toNat == 59

/-- The words of one line: one command per line, in upper case, with a comment from `;` to the end of the line (R56). R56 does
not say whether a line without a command (empty, blanks only, or a comment only) is legal: that it is accepted and issues
nothing is the model's choice (log entry 12, DESIGN CHOICE). -/
def assembleLine (cs : List Char) : Option (List CmdWord) :=
  if isLineEnd cs then some []
  else
    let body := skipBlanks cs
    match readOperands (body.takeWhile isTokenChar) (body.dropWhile isTokenChar) with
    | some (l, rest) => if isLineEnd rest then some (expandLine l) else none
    | none => none

/-- The words of a whole text, one line each. That one wrong line refuses the whole text is the model's choice (log entry 12,
DESIGN CHOICE). -/
def assembleLines : List (List Char) → Option (List CmdWord)
  | [] => some []
  | l :: ls =>
    match assembleLine l, assembleLines ls with
    | some ws, some vs => some (ws ++ vs)
    | _, _ => none

/-- One hexadecimal digit, upper case. -/
def hexChar (d : Nat) : Char := if d < 10 then Char.ofNat (48 + d) else Char.ofNat (55 + d)

/-- The lowest `k` hexadecimal digits of a value, most significant first. -/
def hexChars : Nat → Nat → List Char
  | 0, _ => []
  | k + 1, v => hexChar (v / 16 ^ k % 16) :: hexChars k v

/-- A byte as `0xNN`. -/
def renderByte (b : Byte) : List Char := '0' :: 'x' :: hexChars 2 b.toNat

/-- A word as `0xNNNN`. -/
def renderWord (w : CmdWord) : List Char := '0' :: 'x' :: hexChars 4 w.toNat

/-- A 32-bit value as `0xNNNNNNNN`. -/
def renderWord32 (v : Word32) : List Char := '0' :: 'x' :: hexChars 8 v.toNat

/-- A byte in decimal, without leading zeros. -/
def renderDecimal (b : Byte) : List Char :=
  if b.toNat < 10 then [hexChar b.toNat]
  else if b.toNat < 100 then [hexChar (b.toNat / 10), hexChar (b.toNat % 10)]
  else [hexChar (b.toNat / 100), hexChar (b.toNat / 10 % 10), hexChar (b.toNat % 10)]

/-- A character literal; code 39 is the quote. -/
def renderCharLiteral (c : Char) : List Char := [Char.ofNat 39, c, Char.ofNat 39]

/-- The items of a bracketed list after its `[`, up to and including its `]`. -/
def renderListItems : List Byte → List Char
  | [] => [']']
  | [b] => renderByte b ++ [']']
  | b :: c :: m => renderByte b ++ ',' :: ' ' :: renderListItems (c :: m)

/-- A byte sequence as a bracketed list (R57). -/
def renderList (m : List Byte) : List Char := '[' :: renderListItems m

/-- A text between double quotes, code 34 (R57). -/
def renderText (cs : List Char) : List Char := Char.ofNat 34 :: (cs ++ [Char.ofNat 34])

/-- An instruction as a line of assembly; `.word` is the only way to write a reserved word (R56). -/
def renderInstr (i : Instr) : List Char :=
  match i with
  | .nop => "NOP".toList
  | .init => "INIT".toList
  | .feed b => "FEED ".toList ++ renderByte b
  | .expect b => "EXPECT ".toList ++ renderByte b
  | .check => "CHECK".toList
  | .reserved w => ".word ".toList ++ renderWord w

end Sys2Proof.Machine
end

