-- ==== Sys2Proof/Safety.lean ====
section
/-!
DEFINITION. What counts as a sound state and a sound run of the block, in the terms claims use.
-/
namespace Sys2Proof.Safety

open Sys2Proof.Machine

/-- The flag invariants of spec/10_state.md R26, clause by clause. -/
structure FlagsInv (s : State) : Prop where
  /-- (a), MATCH against CKERR. -/
  not_matched_ckerr : ¬ (s.matched = true ∧ s.ckerr = true)
  /-- (a), MATCH against TRUNC. -/
  not_matched_trunc : ¬ (s.matched = true ∧ s.trunc = true)
  /-- (a), CKERR against TRUNC. -/
  not_ckerr_trunc : ¬ (s.ckerr = true ∧ s.trunc = true)
  /-- (b). -/
  verdict_done : s.matched = true ∨ s.ckerr = true ∨ s.trunc = true → s.done = true
  /-- (c). -/
  ovr_full : s.ovr = true → s.expCnt = 4#3
  /-- (d). -/
  count_le : s.expCnt.toNat ≤ 4

/-- No stale verdict (41_chunk_validation.md R101): every verdict flag that is set is true of the present `ACC` and `EXP`, and
a completed CHECK has exactly the outcome 60_exceptions.md R113 gives. -/
structure VerdictInv (s : State) : Prop where
  /-- `EXP_CNT` is at most 4. -/
  count_le : s.expCnt.toNat ≤ 4
  /-- After an overrun the field is full. -/
  ovr_full : s.ovr = true → s.expCnt = 4#3
  /-- MATCH says that the present stream's crc is the present `EXP`. -/
  matched_iff : s.matched = true ↔ s.done = true ∧ s.expCnt = 4#3 ∧ s.ovr = false ∧ crcOut s = s.exp
  /-- CKERR says that it is not. -/
  ckerr_iff : s.ckerr = true ↔ s.done = true ∧ s.expCnt = 4#3 ∧ s.ovr = false ∧ crcOut s ≠ s.exp
  /-- TRUNC says that the field is short. -/
  trunc_iff : s.trunc = true ↔ s.done = true ∧ s.expCnt.toNat < 4

/-- `EXP` holds no more than the bytes it has absorbed (10_state.md R23, R24). -/
def ExpFits (s : State) : Prop := s.expCnt.toNat ≤ 4 ∧ s.exp.toNat < 256 ^ s.expCnt.toNat

/-- The premise of every claim about a run: no reserved word since the last reset (60_exceptions.md R112). -/
def Trusted (s : State) : Prop := s.ill = false

/-- The launch premise (70_reset_and_hazards.md R133): the last reset step has just happened. -/
def Launched (s : State) : Prop := ∃ s0 : State, s = applyReset s0

/-- No INIT among the words. -/
def NoInit (ws : List CmdWord) : Prop := ∀ w ∈ ws, decode w ≠ .init

/-- No reserved word among them. -/
def NoReserved (ws : List CmdWord) : Prop := ∀ w ∈ ws, isReserved w = false

/-- The bytes the FEEDs among the words absorb, in order. -/
def fedBytes (ws : List CmdWord) : List Byte :=
  ws.filterMap fun w =>
    match decode w with
    | .feed b => some b
    | _ => none

/-- The bytes the EXPECTs among the words offer, in order. -/
def offeredBytes (ws : List CmdWord) : List Byte :=
  ws.filterMap fun w =>
    match decode w with
    | .expect b => some b
    | _ => none

/-- The host's duties on what it issues between the INIT of a chunk and its last CHECK (70_reset_and_hazards.md R135): no
second INIT, no reserved word, exactly four EXPECTs. In which order FEEDs and EXPECTs come is free (40_crc_commands.md R73). -/
def KeepsDuties (ws : List CmdWord) : Prop := NoInit ws ∧ NoReserved ws ∧ (offeredBytes ws).length = 4

/-- The 32-bit value of offered crc-field bytes, first byte most significant (20_memory.md R43). -/
def fieldValue (m : List Byte) : Word32 := m.foldl shiftInByte 0x00000000#32

/-- An input is a reset or comes from the one host (20_memory.md R49). -/
def fromHost (i : Input) : Bool :=
  match i with
  | .reset => true
  | .command .host _ => true
  | .command .other _ => false

end Sys2Proof.Safety
end

