-- ==== Sys2Proof/Certificates/Slice0/Obligations.lean ====
section
/-!
DEFINITION. The statements for the provers. Each docstring names the rules of spec/ the statement formalises.
-/

open Sys2Proof Sys2Proof.Machine Sys2Proof.Safety

/-! ## Reset and the state -/

/-- 70_reset_and_hazards.md R130: every element and every output after reset, from any state whatever; and the reset state is
the state after INIT, except that reset also clears ILL. -/
def Obligations.ResetStateValues : Prop :=
  ∀ s : State, ∃ t : State, react .reset s = .next t ∧
    t.acc = 0xFFFFFFFF#32 ∧ t.exp = 0x00000000#32 ∧ t.expCnt = 0#3 ∧
    t.done = false ∧ t.matched = false ∧ t.ckerr = false ∧ t.trunc = false ∧ t.ovr = false ∧ t.ill = false ∧
    crcOut t = 0x00000000#32 ∧ expOut t = 0x00000000#32 ∧ statusOut t = 0x0000#16 ∧
    exec .init s = .next { t with ill := s.ill } ∧
    t = { State.reset with input := s.input }

/-- 70_reset_and_hazards.md R131: at an edge with `rst = 1` the block takes the reset state, a command presented at the same
edge is discarded, reset may come between any two commands, and no command word is a reset (none clears ILL). -/
def Obligations.ResetWinsOverACommand : Prop :=
  (∀ (e : Edge) (s : State), e.rst = true → clockEdge e s = .next { State.reset with input := s.input }) ∧
  (∀ (s : State) (rest : List Input), s.input = .reset :: rest → step s = .next { State.reset with input := rest }) ∧
  (∀ (w : CmdWord) (s t : State), s.ill = true → exec (decode w) s = .next t → t.ill = true)

/-- The reset state has every invariant stated below, and it is trusted (R26, R112 at reset). -/
def Obligations.ResetStateIsSound : Prop :=
  FlagsInv State.reset ∧ VerdictInv State.reset ∧ ExpFits State.reset ∧ Trusted State.reset

/-- 70_reset_and_hazards.md R132: whatever the power-on state, the outputs follow R29 from it (every bit of `status_out`
too), every command completes from
it (the model's reading, log entry 16), and one reset leads to the reset state. -/
def Obligations.AnyPowerOnStateResets : Prop :=
  ∀ (acc exp : Word32) (cnt : BitVec 3) (done matched ckerr trunc ovr ill : Bool) (l : List Input),
    let s := State.powerOn acc exp cnt done matched ckerr trunc ovr ill l
    crcOut s = acc ^^^ 0xFFFFFFFF#32 ∧ expOut s = exp ∧
    (statusOut s).getLsbD 0 = done ∧ (statusOut s).getLsbD 1 = matched ∧ (statusOut s).getLsbD 2 = ckerr ∧
    (statusOut s).getLsbD 3 = trunc ∧ (statusOut s).getLsbD 4 = ovr ∧ (statusOut s).getLsbD 5 = ill ∧
    (statusOut s).extractLsb' 6 2 = 0#2 ∧ (statusOut s).extractLsb' 8 3 = cnt ∧ (statusOut s).extractLsb' 11 5 = 0#5 ∧
    (∀ i : Instr, ∃ t : State, exec i s = .next t) ∧
    react .reset s = .next { State.reset with input := l }

/-- 10_state.md R29: the three outputs, bit by bit, and `crc_out` right after INIT. -/
def Obligations.OutputPorts : Prop :=
  ∀ s : State,
    crcOut s = s.acc ^^^ 0xFFFFFFFF#32 ∧ expOut s = s.exp ∧
    (statusOut s).getLsbD 0 = s.done ∧ (statusOut s).getLsbD 1 = s.matched ∧ (statusOut s).getLsbD 2 = s.ckerr ∧
    (statusOut s).getLsbD 3 = s.trunc ∧ (statusOut s).getLsbD 4 = s.ovr ∧ (statusOut s).getLsbD 5 = s.ill ∧
    (statusOut s).extractLsb' 6 2 = 0#2 ∧ (statusOut s).extractLsb' 8 3 = s.expCnt ∧
    (statusOut s).extractLsb' 11 5 = 0#5 ∧
    ∃ t : State, exec .init s = .next t ∧ crcOut t = 0x00000000#32

/-- 10_state.md R31: no state is hidden: the three outputs determine every element, `ACC` as `crc_out ^ 0xFFFFFFFF`. -/
def Obligations.NoStateIsHidden : Prop :=
  ∀ s t : State, crcOut s = crcOut t → expOut s = expOut t → statusOut s = statusOut t →
    s.acc = crcOut t ^^^ 0xFFFFFFFF#32 ∧ { s with input := t.input } = t

/-! ## One step -/

/-- A step takes the next input of the host's stream and runs it: a command of the host is decoded and executed on the state
with the rest of the stream; a reset resets; where nothing is presented nothing happens. The
stream in the state and the idle step are the model's choices, log entries 1 and 2. -/
def Obligations.StepRunsTheNextInput : Prop :=
  (∀ (s : State) (w : CmdWord) (rest : List Input), s.input = .command .host w :: rest →
    step s = exec (decode w) { s with input := rest }) ∧
  (∀ (s : State) (rest : List Input), s.input = .reset :: rest → step s = .next (applyReset { s with input := rest })) ∧
  (∀ s : State, s.input = [] → step s = .next s)

/-- 10_state.md R30: which edges accept a command, that the block never stalls and does nothing at an idle edge, and that one
step of the model is one accepted command or one reset. -/
def Obligations.AcceptingAnEdge : Prop :=
  ∀ (e : Edge) (s : State),
    cmdReady s = true ∧
    (e.rst = false → e.cmdValid = true → e.driver = .host → clockEdge e s = exec (decode e.cmd) s) ∧
    (e.rst = false → e.cmdValid = false → clockEdge e s = .next s) ∧
    (∀ i : Input, sampleEdge e s = some i → clockEdge e s = step { s with input := i :: s.input })

/-- 20_memory.md R49, 93_implementation_defined.md U-R7: a second host's command is refused, and nothing else is
(log entries 2 and 8). -/
def Obligations.OnlyASecondHostIsRefused : Prop :=
  (∀ (s : State) (w : CmdWord) (rest : List Input), s.input = .command .other w :: rest → step s = .refused .secondHost) ∧
  (∀ (s : State), (∀ i ∈ s.input, fromHost i = true) → ∃ t : State, step s = .next t)

/-- The word that `withFetchWord` places is the one the next step decodes and runs, on the state as it was (the
model's choice, log entry 3). -/
def Obligations.PlacedWordRunsNext : Prop :=
  ∀ (s : State) (nbits w : Nat) (i : Instr), decodeTableWord nbits w = some i → step (s.withFetchWord nbits w) = exec i s

/-- 60_exceptions.md R110, 20_memory.md R48: every command of every form completes in every state, and no command touches what
the host presents later. -/
def Obligations.EveryCommandCompletes : Prop :=
  ∀ (i : Instr) (s : State), ∃ t : State, exec i s = .next t ∧ t.input = s.input

/-! ## The encoding -/

/-- A few words written out from R52 and R54. -/
def Obligations.DecodedWords : Prop :=
  decode 0x0000#16 = .nop ∧ decode 0x1000#16 = .init ∧ decode 0x2049#16 = .feed 0x49#8 ∧ decode 0x20FF#16 = .feed 0xFF#8 ∧
  decode 0x30AE#16 = .expect 0xAE#8 ∧ decode 0x4000#16 = .check ∧
  decode 0x5000#16 = .reserved 0x5000#16 ∧ decode 0xFFFF#16 = .reserved 0xFFFF#16 ∧
  decode 0x0001#16 = .reserved 0x0001#16 ∧ decode 0x1001#16 = .reserved 0x1001#16 ∧
  decode 0x4001#16 = .reserved 0x4001#16 ∧ decode 0x2100#16 = .reserved 0x2100#16 ∧ decode 0x0100#16 = .reserved 0x0100#16

/-- 30_encoding.md R52: the opcode map, by its match and mask columns. -/
def Obligations.OpcodeMap : Prop :=
  ∀ w : CmdWord,
    (decode w = .nop ↔ w &&& 0xFFFF#16 = 0x0000#16) ∧
    (decode w = .init ↔ w &&& 0xFFFF#16 = 0x1000#16) ∧
    (decode w = .feed (w.extractLsb' 0 8) ↔ w &&& 0xFF00#16 = 0x2000#16) ∧
    (decode w = .expect (w.extractLsb' 0 8) ↔ w &&& 0xFF00#16 = 0x3000#16) ∧
    (decode w = .check ↔ w &&& 0xFFFF#16 = 0x4000#16) ∧
    (w.extractLsb' 12 4 ≥ 0x5#4 → decode w = .reserved w)

/-- 30_encoding.md R53: exactly which words each legal command has, 515 in all. -/
def Obligations.LegalWords : Prop :=
  (∀ w : CmdWord,
    (decode w = .nop ↔ w = 0x0000#16) ∧ (decode w = .init ↔ w = 0x1000#16) ∧ (decode w = .check ↔ w = 0x4000#16) ∧
    ((∃ b, decode w = .feed b) ↔ 0x2000#16 ≤ w ∧ w ≤ 0x20FF#16) ∧
    ((∃ b, decode w = .expect b) ↔ 0x3000#16 ≤ w ∧ w ≤ 0x30FF#16)) ∧
  ∃ l : List CmdWord, l.Nodup ∧ l.length = 515 ∧ ∀ w : CmdWord, w ∈ l ↔ ∀ v : CmdWord, decode w ≠ .reserved v

/-- 30_encoding.md R54: the three cases of a reserved word, and that a reserved word is not a NOP. -/
def Obligations.ReservedWords : Prop :=
  ∀ w : CmdWord,
    let op := w.extractLsb' 12 4
    let z := w.extractLsb' 8 4
    let b := w.extractLsb' 0 8
    (decode w = .reserved w ↔
      0x5#4 ≤ op ∨ (op ≤ 0x4#4 ∧ z ≠ 0#4) ∨ ((op = 0x0#4 ∨ op = 0x1#4 ∨ op = 0x4#4) ∧ b ≠ 0#8)) ∧
    (decode w = .reserved w ↔ isReserved w = true) ∧
    (isReserved w = true → decode w ≠ .nop)

/-- Every well-formed instruction, every operand at every value, decodes from its own word (R50 to R55). -/
def Obligations.DecodeOfEncode : Prop :=
  ∀ i : Instr, WellFormed i = true → decode (encode i) = i

/-- Every word decodes to a well-formed instruction whose word it is: decoding is total and drops no bit (R50 to R55). -/
def Obligations.EncodeOfDecode : Prop :=
  ∀ w : CmdWord, WellFormed (decode w) = true ∧ encode (decode w) = w

/-- 30_encoding.md R57: the pseudo-instructions expand to real commands, one word each, in order; an empty sequence of FEEDS
expands to nothing. -/
def Obligations.PseudoInstructions : Prop :=
  (∀ m : List Byte, (expandLine (.feeds m)).map decode = m.map Instr.feed) ∧
  expandLine (.feeds []) = [] ∧
  (∀ v : Word32, (expandLine (.expect32 v)).map decode =
    [.expect (v.extractLsb' 24 8), .expect (v.extractLsb' 16 8), .expect (v.extractLsb' 8 8), .expect (v.extractLsb' 0 8)]) ∧
  (∀ m : List Byte, (expandLine (.crcOf m)).map decode = .init :: m.map Instr.feed) ∧
  (∀ (m : List Byte) (v : Word32), expandLine (.verify m v) =
    encode .init :: (expandLine (.feeds m) ++ expandLine (.expect32 v) ++ [encode .check]))

/-- 30_encoding.md R56: an instruction written as a line of assembly assembles to its word, with or without a comment from `;`
to the end of the line; a byte operand may be written in hexadecimal, in decimal or as a character literal standing for its
ASCII code; `.word` issues any word as it stands. The blanks and digits of the line are log entry 12's. -/
def Obligations.AssembledText : Prop :=
  (∀ (i : Instr) (comment : List Char),
    assembleLine (renderInstr i) = some [encode i] ∧
    assembleLine (renderInstr i ++ ';' :: comment) = some [encode i] ∧
    assembleLine (renderInstr i ++ ' ' :: ';' :: comment) = some [encode i]) ∧
  (∀ b : Byte,
    assembleLine ("FEED ".toList ++ renderByte b) = some [encode (.feed b)] ∧
    assembleLine ("EXPECT ".toList ++ renderByte b) = some [encode (.expect b)] ∧
    assembleLine ("FEED ".toList ++ renderDecimal b) = some [encode (.feed b)] ∧
    assembleLine ("EXPECT ".toList ++ renderDecimal b) = some [encode (.expect b)]) ∧
  (∀ c : Char, c.toNat < 128 →
    assembleLine ("FEED ".toList ++ renderCharLiteral c) = some [encode (.feed (BitVec.ofNat 8 c.toNat))] ∧
    assembleLine ("EXPECT ".toList ++ renderCharLiteral c) = some [encode (.expect (BitVec.ofNat 8 c.toNat))]) ∧
  (∀ w : CmdWord, assembleLine (".word ".toList ++ renderWord w) = some [w])

/-- 30_encoding.md R57: the pseudo-instructions written as text, their byte sequence as a bracketed list or as a text of ASCII
characters, issue the words of their expansion. The blanks and digits of the line are log entry 12's. -/
def Obligations.PseudoInstructionsAsText : Prop :=
  (∀ v : Word32, assembleLine ("EXPECT32 ".toList ++ renderWord32 v) = some (expandLine (.expect32 v))) ∧
  (∀ (m : List Byte) (v : Word32),
    assembleLine ("FEEDS ".toList ++ renderList m) = some (expandLine (.feeds m)) ∧
    assembleLine ("CRCOF ".toList ++ renderList m) = some (expandLine (.crcOf m)) ∧
    assembleLine ("VERIFY ".toList ++ renderList m ++ ", ".toList ++ renderWord32 v) = some (expandLine (.verify m v))) ∧
  (∀ (cs : List Char) (v : Word32), (∀ c ∈ cs, c.toNat < 128 ∧ c.toNat ≠ 34) →
    let m : List Byte := cs.map fun c => BitVec.ofNat 8 c.toNat
    assembleLine ("FEEDS ".toList ++ renderText cs) = some (expandLine (.feeds m)) ∧
    assembleLine ("CRCOF ".toList ++ renderText cs) = some (expandLine (.crcOf m)) ∧
    assembleLine ("VERIFY ".toList ++ renderText cs ++ ", ".toList ++ renderWord32 v) = some (expandLine (.verify m v)))

/-! ## The commands -/

/-- 40_crc_commands.md R70: in any state S, NOP leaves S; its word is 0x0000. -/
def Obligations.NopLeavesTheState : Prop :=
  decode 0x0000#16 = .nop ∧ ∀ s : State, exec .nop s = .next s

/-- 40_crc_commands.md R71: INIT's writes, all else (ILL, and what the host presents later) kept; it is idempotent; `crc_out`
is 0 after it; the rule's example. -/
def Obligations.InitStartsAChecksum : Prop :=
  decode 0x1000#16 = .init ∧
  ∀ s : State, ∃ t : State, exec .init s = .next t ∧
    t = { s with acc := 0xFFFFFFFF#32, exp := 0x00000000#32, expCnt := 0#3, done := false, matched := false,
                 ckerr := false, trunc := false, ovr := false } ∧
    exec .init t = .next t ∧ crcOut t = 0x00000000#32 ∧
    (s.ill = true → s.expCnt = 4#3 → expOut t = 0x00000000#32 ∧ statusOut t = 0x0020#16)

/-- 40_crc_commands.md R72: FEED of any byte in any state: `ACC` takes `CrcStep`, the four verdict flags are cleared, all else
is kept; the rule's values from INIT. -/
def Obligations.FeedAbsorbsAByte : Prop :=
  (∀ b : Byte, decode (0x20#8 ++ b) = .feed b) ∧
  (∀ (b : Byte) (s : State),
    exec (.feed b) s =
      .next { s with acc := crcStep s.acc b, done := false, matched := false, ckerr := false, trunc := false }) ∧
  (∀ s : State, s.acc = 0xFFFFFFFF#32 →
    (∃ t : State, exec (.feed 0x00#8) s = .next t ∧ t.acc = 0x2DFD1072#32 ∧ crcOut t = 0xD202EF8D#32) ∧
    (∃ t : State, exec (.feed 0xFF#8) s = .next t ∧ crcOut t = 0xFF000000#32) ∧
    (∃ t : State, exec (.feed 0x49#8) s = .next t ∧ t.acc = 0x22FDE946#32 ∧ crcOut t = 0xDD0216B9#32))

/-- 40_crc_commands.md R73, on every state that reset or a command sequence reaches (EXP_CNT at most 4, 10_state.md R26): a
full field raises `ExpectOverrun` and keeps `EXP` and `EXP_CNT`, a short one takes the byte; the verdict is cleared, all else is
kept; the rule's example. -/
def Obligations.ExpectAbsorbsACrcByte : Prop :=
  (∀ b : Byte, decode (0x30#8 ++ b) = .expect b) ∧
  (∀ (b : Byte) (s : State), s.expCnt = 4#3 →
    exec (.expect b) s = .next { s with ovr := true, done := false, matched := false, ckerr := false, trunc := false }) ∧
  (∀ (b : Byte) (s : State), s.expCnt.toNat < 4 →
    exec (.expect b) s =
      .next { s with exp := s.exp.extractLsb' 0 24 ++ b, expCnt := s.expCnt + 1#3,
                     done := false, matched := false, ckerr := false, trunc := false }) ∧
  (∀ s : State, ∃ t u : State, exec .init s = .next t ∧ exec (.expect 0xAE#8) t = .next u ∧
    expOut u = 0x000000AE#32 ∧ (s.ill = false → statusOut u = 0x0100#16))

/-- EXPECT in the states only a power-on state holds (EXP_CNT 5 to 7), THE MODEL'S READING: at 5 and 6 the count goes up by 1
(log entry 6, DEDUCED from R73's pseudocode), at 7 it takes a free value (log entry 5, DESIGN CHOICE); all else as in R73. -/
def Obligations.ExpectBeforeTheFirstReset : Prop :=
  ∀ (b : Byte) (s : State), 4 < s.expCnt.toNat →
    ∃ c : BitVec 3, (s.expCnt.toNat < 7 → c.toNat = s.expCnt.toNat + 1) ∧
      exec (.expect b) s =
        .next { s with exp := s.exp.extractLsb' 0 24 ++ b, expCnt := c,
                       done := false, matched := false, ckerr := false, trunc := false }

/-- 40_crc_commands.md R74, in any state: DONE, MATCH, CKERR and TRUNC by the rule's formulas, all else kept; CHECK is
idempotent; with no FEED since INIT it matches only a field of zeros; the rule's example. -/
def Obligations.CheckComparesTheCrcs : Prop :=
  decode 0x4000#16 = .check ∧
  (∀ s : State, ∃ t : State, exec .check s = .next t ∧
    t = { s with done := true, matched := t.matched, ckerr := t.ckerr, trunc := t.trunc } ∧
    (t.matched = true ↔ s.expCnt = 4#3 ∧ s.ovr = false ∧ s.acc ^^^ 0xFFFFFFFF#32 = s.exp) ∧
    (t.ckerr = true ↔ s.expCnt = 4#3 ∧ s.ovr = false ∧ s.acc ^^^ 0xFFFFFFFF#32 ≠ s.exp) ∧
    (t.trunc = true ↔ s.expCnt.toNat < 4) ∧
    exec .check t = .next t ∧
    (s.acc = 0xFFFFFFFF#32 → t.matched = true → s.exp = 0x00000000#32)) ∧
  (∀ s : State, s.ill = false → ∃ t : State,
    issueAll (verifyWords [0x49#8, 0x45#8, 0x4E#8, 0x44#8] 0xAE426082#32) s = .next t ∧ statusOut t = 0x0403#16)

/-- 40_crc_commands.md R75: a reserved word sets ILL and changes nothing else; the rule's examples. -/
def Obligations.ReservedWordSetsIll : Prop :=
  (∀ (w : CmdWord) (s : State), exec (.reserved w) s = .next { s with ill := true }) ∧
  (∀ (w : CmdWord) (s : State), isReserved w = true → exec (decode w) s = .next { s with ill := true }) ∧
  (∀ s : State, ∃ t u : State, exec .init s = .next t ∧ exec (decode 0x5000#16) t = .next u ∧ statusOut u = 0x0020#16) ∧
  (∀ s : State, exec (decode 0x1001#16) s = .next { s with ill := true })

/-- FRAME of every command: the elements its rule does not name, and the input stream, are unchanged (R70 to R75). The block has
no memory (R40), so there is no byte to keep. -/
def Obligations.CommandFrames : Prop :=
  ∀ (i : Instr) (s t : State), exec i s = .next t →
    t.input = s.input ∧
    match i with
    | .nop => t = s
    | .init => t.ill = s.ill
    | .feed _ => t.exp = s.exp ∧ t.expCnt = s.expCnt ∧ t.ovr = s.ovr ∧ t.ill = s.ill
    | .expect _ => t.acc = s.acc ∧ t.ill = s.ill ∧
        (s.expCnt = 4#3 → t.exp = s.exp ∧ t.expCnt = s.expCnt) ∧ (s.expCnt ≠ 4#3 → t.ovr = s.ovr)
    | .check => t.acc = s.acc ∧ t.exp = s.exp ∧ t.expCnt = s.expCnt ∧ t.ovr = s.ovr ∧ t.ill = s.ill
    | .reserved _ => t.acc = s.acc ∧ t.exp = s.exp ∧ t.expCnt = s.expCnt ∧ t.done = s.done ∧ t.matched = s.matched ∧
        t.ckerr = s.ckerr ∧ t.trunc = s.trunc ∧ t.ovr = s.ovr

/-- 10_state.md R21: only INIT and reset (which write INIT) and FEED (which writes `CrcStep`) write `ACC`. -/
def Obligations.OnlyInitFeedAndResetWriteAcc : Prop :=
  (∀ (i : Instr) (s t : State), exec i s = .next t →
    t.acc = match i with
      | .init => 0xFFFFFFFF#32
      | .feed b => crcStep s.acc b
      | _ => s.acc) ∧
  (∀ s t : State, step s = .next t → t.acc ≠ s.acc →
    (t.acc = 0xFFFFFFFF#32 ∧ (s.input.head? = some .reset ∨ s.input.head? = some (.command .host 0x1000#16))) ∨
    ∃ b : Byte, s.input.head? = some (.command .host (0x20#8 ++ b)) ∧ t.acc = crcStep s.acc b)

/-- 10_state.md R23: EXPECT shifts one byte into the low end, four of them give the big-endian value of the field, INIT and
reset write 0, and no other command writes `EXP`. -/
def Obligations.ExpIsTheBigEndianField : Prop :=
  (∀ (s : State) (c0 c1 c2 c3 : Byte), s.expCnt = 0#3 → ∃ t : State,
    issueAll (expects [c0, c1, c2, c3]) s = .next t ∧ t.exp = c0 ++ c1 ++ c2 ++ c3 ∧ t.expCnt = 4#3 ∧
      t.acc = s.acc ∧ t.ovr = s.ovr ∧ t.ill = s.ill) ∧
  (∀ (b : Byte) (s : State), s.expCnt ≠ 4#3 → ∃ t : State, exec (.expect b) s = .next t ∧
    t.exp.extractLsb' 0 8 = b ∧ t.exp.extractLsb' 8 24 = s.exp.extractLsb' 0 24) ∧
  (∀ (i : Instr) (s t : State), exec i s = .next t → t.exp ≠ s.exp →
    (i = .init ∧ t.exp = 0x00000000#32) ∨ ∃ b, i = .expect b) ∧
  (∀ s : State, ∃ t : State, exec .init s = .next t ∧ t.exp = 0x00000000#32) ∧
  (∀ s t : State, react .reset s = .next t → t.exp = 0x00000000#32)

/-- 10_state.md R25: the table of who sets and who clears each flag, for every command and for reset. -/
def Obligations.FlagWriters : Prop :=
  (∀ (i : Instr) (s t : State), exec i s = .next t →
    match i with
    | .nop => t.done = s.done ∧ t.matched = s.matched ∧ t.ckerr = s.ckerr ∧ t.trunc = s.trunc ∧ t.ovr = s.ovr ∧ t.ill = s.ill
    | .init => t.done = false ∧ t.matched = false ∧ t.ckerr = false ∧ t.trunc = false ∧ t.ovr = false ∧ t.ill = s.ill
    | .feed _ => t.done = false ∧ t.matched = false ∧ t.ckerr = false ∧ t.trunc = false ∧ t.ovr = s.ovr ∧ t.ill = s.ill
    | .expect _ => t.done = false ∧ t.matched = false ∧ t.ckerr = false ∧ t.trunc = false ∧
        (t.ovr = true ↔ s.ovr = true ∨ s.expCnt = 4#3) ∧ t.ill = s.ill
    | .check => t.done = true ∧
        (t.matched = true ↔ s.expCnt = 4#3 ∧ s.ovr = false ∧ s.acc ^^^ 0xFFFFFFFF#32 = s.exp) ∧
        (t.ckerr = true ↔ s.expCnt = 4#3 ∧ s.ovr = false ∧ s.acc ^^^ 0xFFFFFFFF#32 ≠ s.exp) ∧
        (t.trunc = true ↔ s.expCnt < 4#3) ∧ t.ovr = s.ovr ∧ t.ill = s.ill
    | .reserved _ => t.done = s.done ∧ t.matched = s.matched ∧ t.ckerr = s.ckerr ∧ t.trunc = s.trunc ∧ t.ovr = s.ovr ∧
        t.ill = true) ∧
  (∀ s t : State, react .reset s = .next t →
    t.done = false ∧ t.matched = false ∧ t.ckerr = false ∧ t.trunc = false ∧ t.ovr = false ∧ t.ill = false)

/-- 20_memory.md R46: NOP, CHECK and INIT issued twice are issued once; FEED and EXPECT are not idempotent: two FEEDs absorb
the byte twice, and for some byte and state the second changes `ACC`; two EXPECTs shift twice, and while fewer than three bytes
are there the second always leaves another state than the first. -/
def Obligations.WhichCommandsAreIdempotent : Prop :=
  (∀ (i : Instr) (s t : State), i = .nop ∨ i = .check ∨ i = .init → exec i s = .next t → exec i t = .next t) ∧
  (∀ (b : Byte) (s : State), ∃ t u : State, exec (.feed b) s = .next t ∧ exec (.feed b) t = .next u ∧
    t.acc = crcStep s.acc b ∧ u.acc = crcStep (crcStep s.acc b) b) ∧
  (∃ (b : Byte) (s t u : State), exec (.feed b) s = .next t ∧ exec (.feed b) t = .next u ∧ u.acc ≠ t.acc) ∧
  (∀ (b : Byte) (s : State), s.expCnt.toNat < 3 → ∃ t u : State, exec (.expect b) s = .next t ∧ exec (.expect b) t = .next u ∧
    t.exp = s.exp.extractLsb' 0 24 ++ b ∧ t.expCnt = s.expCnt + 1#3 ∧
    u.exp = s.exp.extractLsb' 0 16 ++ b ++ b ∧ u.expCnt = s.expCnt + 2#3 ∧ u ≠ t)

/-! ## Exceptions -/

/-- 60_exceptions.md R110, R111: raising an exception sets the bit of `status_out` at its cause code, to 1, and does nothing
else: the other bits, the other outputs and the input stream are as before. The codes are those of R111's table, and the flag
each exception sets is the one the table names. -/
def Obligations.RaisingSetsOneStatusBit : Prop :=
  ∀ (e : Exc) (s : State),
    statusOut (raise e s) = statusOut s ||| (1#16 <<< causeCode e) ∧
    crcOut (raise e s) = crcOut s ∧ expOut (raise e s) = expOut s ∧ (raise e s).input = s.input ∧
    causeCode .checksumMismatch = 2 ∧ causeCode .truncatedInput = 3 ∧ causeCode .expectOverrun = 4 ∧
    causeCode .illegalCommand = 5 ∧
    raise .checksumMismatch s = { s with ckerr := true } ∧ raise .truncatedInput s = { s with trunc := true } ∧
    raise .expectOverrun s = { s with ovr := true } ∧ raise .illegalCommand s = { s with ill := true }

/-- 60_exceptions.md R113: one CHECK reports at most one verdict, in the rule's order; the cases of a short field and of an
overrun cannot both hold in a state with R26's invariants; ILL takes no part. -/
def Obligations.CheckVerdictPriority : Prop :=
  ∀ s : State, FlagsInv s → ∃ t : State, exec .check s = .next t ∧ t.done = true ∧
    ¬ (s.expCnt.toNat < 4 ∧ s.ovr = true) ∧
    (s.expCnt.toNat < 4 → t.trunc = true ∧ t.matched = false ∧ t.ckerr = false) ∧
    (¬ s.expCnt.toNat < 4 → s.ovr = true → t.trunc = false ∧ t.matched = false ∧ t.ckerr = false) ∧
    (¬ s.expCnt.toNat < 4 → s.ovr = false → t.trunc = false ∧ t.matched = decide (crcOut s = expOut s) ∧
      t.ckerr = !t.matched) ∧
    ∀ b : Bool, exec .check { s with ill := b } = .next { t with ill := b }

/-- 60_exceptions.md R115: of the four exception flags a command turns at most one from 0 to 1, in any state. -/
def Obligations.AtMostOneExceptionPerCommand : Prop :=
  ∀ (i : Instr) (s t : State), exec i s = .next t →
    (!s.ckerr && t.ckerr).toNat + (!s.trunc && t.trunc).toNat + (!s.ovr && t.ovr).toNat + (!s.ill && t.ill).toNat ≤ 1

/-- 60_exceptions.md R112: over any sequence of words from any state, ILL ends at 1 exactly if it was 1 or a reserved word was
among them; from a reset, `ILL = 0` in the final state is equivalent to no reserved word since. -/
def Obligations.IllIsSticky : Prop :=
  (∀ (ws : List CmdWord) (s : State), ∃ t : State, issueAll ws s = .next t ∧
    (t.ill = true ↔ s.ill = true ∨ ∃ w ∈ ws, isReserved w = true)) ∧
  (∀ (ws : List CmdWord) (s : State), Launched s → ∃ t : State, issueAll ws s = .next t ∧ (t.ill = false ↔ NoReserved ws))

/-- 41_chunk_validation.md R97: after a CHECK in a state with R26's invariants the host reads exactly the row of the rule's
table whose flags are set, and never nothing. -/
def Obligations.HostReadsTheVerdict : Prop :=
  ∀ s : State, FlagsInv s → ∃ t : State, exec .check s = .next t ∧
    (readVerdict (statusOut t) = .hostFault ↔ t.ill = true) ∧
    (readVerdict (statusOut t) = .valid ↔ t.ill = false ∧ t.matched = true) ∧
    (readVerdict (statusOut t) = .checksumMismatch ↔ t.ill = false ∧ t.ckerr = true) ∧
    (readVerdict (statusOut t) = .truncatedInput ↔ t.ill = false ∧ t.trunc = true) ∧
    (readVerdict (statusOut t) = .void ↔
      t.ill = false ∧ t.done = true ∧ t.ovr = true ∧ t.matched = false ∧ t.ckerr = false ∧ t.trunc = false) ∧
    readVerdict (statusOut t) ≠ .unread

/-! ## Invariants that every step keeps -/

/-- 10_state.md R26: every step keeps the flag invariants, from every state that has them, and a reset makes them;
a power-on state before the first reset need not have them. -/
def Obligations.StepKeepsFlagInvariants : Prop :=
  (∀ s : State, FlagsInv (applyReset s)) ∧ (∀ s t : State, FlagsInv s → step s = .next t → FlagsInv t) ∧
  ∃ (cnt : BitVec 3), ∀ (acc exp : Word32) (d m k t o i : Bool) (l : List Input),
    ¬ FlagsInv (State.powerOn acc exp cnt d m k t o i l)

/-- 41_chunk_validation.md R101: every step keeps the verdict true of the present stream and the present `EXP`: a MATCH the
host reads is never stale. -/
def Obligations.StepKeepsTheVerdictFresh : Prop :=
  ∀ s t : State, VerdictInv s → step s = .next t → VerdictInv t

/-- 10_state.md R23, R24: every step keeps `EXP_CNT` at most 4 and `EXP` within the bytes it has absorbed. -/
def Obligations.StepKeepsExpFits : Prop :=
  ∀ s t : State, ExpFits s → step s = .next t → ExpFits t

/-! ## The checksum -/

/-- 00_scope.md R9 and 10_state.md R22: what `reflect_N` does to each bit, the rule's examples, and that INIT is its own
reflection. -/
def Obligations.ReflectReversesBits : Prop :=
  (∀ (n : Nat) (v : BitVec n) (i : Nat), i < n → (reflect v).getLsbD (n - 1 - i) = v.getLsbD i) ∧
  reflect 0x01#8 = 0x80#8 ∧ reflect 0x04C11DB7#32 = 0xEDB88320#32 ∧ reflect 0xFFFFFFFF#32 = 0xFFFFFFFF#32 ∧
  reflect Config.poly = Config.polyR

/-- 40_crc_commands.md R67: the datapath computes the parameter model, for every byte sequence. -/
def Obligations.DatapathComputesTheParameterModel : Prop :=
  ∀ m : List Byte, accOf m = reflect (regOf m) ∧ crc m = accOf m ^^^ 0xFFFFFFFF#32

/-- 40_crc_commands.md R68: the table form of `CrcStep`, that every iteration is linear, and the rule's entries. -/
def Obligations.TableFormOfTheDatapath : Prop :=
  (∀ n : Byte, crcTable n = crcStep 0x00000000#32 n) ∧
  (∀ (acc : Word32) (b : Byte),
    crcStep acc b = (acc >>> 8) ^^^ crcTable ((acc ^^^ b.setWidth 32).extractLsb' 0 8)) ∧
  (∀ a b : Word32, reflectedShift (a ^^^ b) = reflectedShift a ^^^ reflectedShift b) ∧
  crcTable 0x00#8 = 0x00000000#32 ∧ crcTable 0x01#8 = 0x77073096#32 ∧ crcTable 0x80#8 = 0xEDB88320#32 ∧
  crcTable 0xFF#8 = 0x2D02EF8D#32

/-- 40_crc_commands.md R76: `CrcStep` is linear over GF(2). -/
def Obligations.CrcStepIsLinear : Prop :=
  (∀ (a1 a2 : Word32) (b1 b2 : Byte), crcStep (a1 ^^^ a2) (b1 ^^^ b2) = crcStep a1 b1 ^^^ crcStep a2 b2) ∧
  (∀ (a : Word32) (b : Byte), crcStep a b = crcStep a 0x00#8 ^^^ crcStep 0x00000000#32 b)

/-- 40_crc_commands.md R69: after an INIT, or a reset, and any words without INIT, `ACC` and `crc_out` are those of exactly the
bytes fed, in order, whatever NOPs, EXPECTs, CHECKs and reserved words stand among the FEEDs. -/
def Obligations.RunningCrc : Prop :=
  ∀ (ws : List CmdWord) (s : State), NoInit ws →
    (∃ t : State, issueAll (encode .init :: ws) s = .next t ∧ t.acc = accOf (fedBytes ws) ∧ crcOut t = crc (fedBytes ws)) ∧
    (∃ t : State, issueAll ws (applyReset s) = .next t ∧ t.acc = accOf (fedBytes ws) ∧ crcOut t = crc (fedBytes ws)) ∧
    crc [] = 0x00000000#32

/-! ## Construction and verification of a chunk -/

/-- 41_chunk_validation.md R92: GENERATE ends with `crc_out = CRC(type ++ data)` and cannot set any status flag; the host stores
the length and that crc. -/
def Obligations.GenerateGivesTheChunkCrc : Prop :=
  ∀ (tag data : List Byte) (s : State), ∃ t : State,
    issueAll (generateWords tag data) s = .next t ∧ crcOut t = crc (tag ++ data) ∧
    t.done = false ∧ t.matched = false ∧ t.ckerr = false ∧ t.trunc = false ∧ t.ovr = false ∧ t.ill = s.ill ∧
    t.expCnt = 0#3 ∧
    construct tag data s =
      .next (t, { length := BitVec.ofNat 32 data.length, tag := tag, data := data, crc := crc (tag ++ data) })

/-- 41_chunk_validation.md R93, R94: the layout of an encoded chunk. -/
def Obligations.EncodedChunkLayout : Prop :=
  ∀ c : Chunk, c.tag.length = 4 →
    (serialize c).length = 12 + c.data.length ∧
    (serialize c).take 4 = [c.length.extractLsb' 24 8, c.length.extractLsb' 16 8, c.length.extractLsb' 8 8, c.length.extractLsb' 0 8] ∧
    ((serialize c).drop 4).take 4 = c.tag ∧
    ((serialize c).drop 8).take c.data.length = c.data ∧
    (serialize c).drop (8 + c.data.length) =
      [c.crc.extractLsb' 24 8, c.crc.extractLsb' 16 8, c.crc.extractLsb' 8 8, c.crc.extractLsb' 0 8]

/-- 60_exceptions.md R114, 41_chunk_validation.md R96: the host's part of `parse` fails in the rule's order, and otherwise slices
the fields at R93's offsets (the host's part as log entry 13 models it). -/
def Obligations.HostFramingOrder : Prop :=
  ∀ buf : List Byte,
    let n := (wordBE (buf.getD 0 0) (buf.getD 1 0) (buf.getD 2 0) (buf.getD 3 0)).toNat
    let tag := (buf.drop 4).take 4
    (buf.length < 8 → frameChunk buf = .error .truncatedInput) ∧
    (8 ≤ buf.length → tag.all isTagByte = false → frameChunk buf = .error .invalidTag) ∧
    (8 ≤ buf.length → tag.all isTagByte = true → buf.length < 8 + n + 4 → frameChunk buf = .error .truncatedInput) ∧
    (8 + n + 4 ≤ buf.length → tag.all isTagByte = true → ∃ c : Chunk,
      frameChunk buf = .ok (c, buf.drop (12 + n)) ∧ c.tag = tag ∧ c.length.toNat = n ∧ c.data = (buf.drop 8).take n ∧
      bytesBE c.crc = (buf.drop (8 + n)).take 4)

/-- The verdict over any order of FEEDs and EXPECTs the host's duties allow (40_crc_commands.md R73, R74; 70_reset_and_hazards.md
R135): the crc of exactly the fed bytes against the offered field. -/
def Obligations.VerdictForAnyDutifulOrder : Prop :=
  ∀ (body : List CmdWord) (s : State), s.ill = false → KeepsDuties body → ∃ t : State,
    issueAll (encode .init :: (body ++ [encode .check])) s = .next t ∧
    crcOut t = crc (fedBytes body) ∧ expOut t = fieldValue (offeredBytes body) ∧
    t.done = true ∧ t.trunc = false ∧ t.ovr = false ∧ t.ill = false ∧
    t.matched = decide (crc (fedBytes body) = fieldValue (offeredBytes body)) ∧ t.ckerr = !t.matched ∧
    readVerdict (statusOut t) =
      if crc (fedBytes body) = fieldValue (offeredBytes body) then .valid else .checksumMismatch

/-- 41_chunk_validation.md R99: the round trip of any chunk type and payload through `construct`, `serialize` and `parse`
reproduces every field, and VERIFY ends with MATCH alone. -/
def Obligations.ChunkRoundTrip : Prop :=
  ∀ (tag data : List Byte) (s : State), tag.length = 4 → tag.all isTagByte = true → data.length < 2 ^ 32 → s.ill = false →
    ∃ (t u : State) (c : Chunk), construct tag data s = .next (t, c) ∧
      c.length.toNat = data.length ∧ c.tag = tag ∧ c.data = data ∧ c.crc = crc (tag ++ data) ∧ chunkValid c = true ∧
      parseChunk (serialize c) t = .next (u, .ok (c, [])) ∧
      u.matched = true ∧ u.ckerr = false ∧ u.trunc = false ∧ u.ovr = false ∧ u.ill = false

/-- 41_chunk_validation.md R100, for the stored crc field: any single flipped bit gives `ChecksumMismatch`. -/
def Obligations.FlippedCrcFieldBitIsCaught : Prop :=
  ∀ (m : List Byte) (k : Nat) (s : State), k < 32 → ∃ t : State,
    issueAll (verifyWords m (crc m ^^^ (1#32 <<< k))) s = .next t ∧ t.ckerr = true ∧ t.matched = false ∧
    (s.ill = false → readVerdict (statusOut t) = .checksumMismatch)

/-- 41_chunk_validation.md R100, for type and data: any single flipped bit of the checked bytes, with the stored crc kept, gives
`ChecksumMismatch`. -/
def Obligations.FlippedStreamBitIsCaught : Prop :=
  ∀ (p q : List Byte) (b : Byte) (k : Nat) (s : State), k < 8 → ∃ t : State,
    issueAll (verifyWords (p ++ (b ^^^ (1#8 <<< k)) :: q) (crc (p ++ b :: q))) s = .next t ∧
    t.ckerr = true ∧ t.matched = false ∧ (s.ill = false → readVerdict (statusOut t) = .checksumMismatch)

/-- 41_chunk_validation.md R104: from an INIT on, the block keeps nothing of what came before it except ILL. -/
def Obligations.OnlyIllSurvivesInit : Prop :=
  ∀ (ws : List CmdWord) (s1 s2 : State), s1.ill = s2.ill → s1.input = s2.input →
    issueAll (encode .init :: ws) s1 = issueAll (encode .init :: ws) s2

/-- 41_chunk_validation.md R104: a file of valid chunks parses to exactly those chunks, in file order, each with its own VERIFY;
the first chunk whose stored crc is wrong fails the whole parse, whatever follows it. How the host's part is modelled is log
entries 13 and 14. -/
def Obligations.FileOfChunksParses : Prop :=
  ∀ (cs : List Chunk) (s : State), (∀ c ∈ cs, chunkValid c = true ∧ c.tag.all isTagByte = true) → s.ill = false →
    (∃ u : State, parseFile (cs.flatMap serialize) s = .next (u, .ok cs)) ∧
    ∀ (c : Chunk) (rest : List Byte), c.tag.length = 4 → c.tag.all isTagByte = true → c.length.toNat = c.data.length →
      c.crc ≠ crc (c.tag ++ c.data) →
      ∃ u : State, parseFile (cs.flatMap serialize ++ serialize c ++ rest) s = .next (u, .error .checksumMismatch)

/-- 70_reset_and_hazards.md R130, R131, 60_exceptions.md R112: nothing survives a reset, ILL included: what the block does after
one does not depend on what reached it before. -/
def Obligations.NothingSurvivesReset : Prop :=
  ∀ (is js : List Input) (s : State), (∀ i ∈ is, fromHost i = true) →
    reactAll (is ++ .reset :: js) s = reactAll js { State.reset with input := s.input }

/-- 20_memory.md R47, 10_state.md R27: words presented as a stream take effect one a step, in order: as many steps as words
give what issuing them one by one gives, with the rest of the stream left. -/
def Obligations.StreamOrder : Prop :=
  ∀ (ws : List CmdWord) (s : State),
    Host.Core.run Sys2Proof.core ws.length { s with input := ws.map (Input.command .host) ++ s.input } = issueAll ws s

/-- 70_reset_and_hazards.md R136: VERIFY of a chunk of n data bytes is n + 10 commands, GENERATE n + 5. -/
def Obligations.CommandCounts : Prop :=
  ∀ (tag data : List Byte) (v : Word32), tag.length = 4 →
    (verifyWords (tag ++ data) v).length = data.length + 10 ∧ (generateWords tag data).length = data.length + 5
end

