-- ==== Sys2Proof/Laws/Assembler.lean ====
section
/-!
SUPPORT. What each reader of the assembler answers on a text that begins with a rendered token, said once.
-/
namespace Sys2Proof.Machine

/-- The text does not go on with a character of a token. -/
def EndsToken (rest : List Char) : Prop := rest.takeWhile isTokenChar = [] ∧ rest.dropWhile isTokenChar = rest

theorem endsToken_nil : EndsToken [] := ⟨rfl, rfl⟩

theorem endsToken_cons {c : Char} (h : isTokenChar c = false) (rest : List Char) : EndsToken (c :: rest) := by
  simp [EndsToken, h]

theorem skipBlanks_of_not_blank {c : Char} (h : isBlankChar c = false) (rest : List Char) : skipBlanks (c :: rest) = c :: rest := by
  simp [skipBlanks, h]

theorem skipBlanks_space (rest : List Char) : skipBlanks (' ' :: rest) = skipBlanks rest := rfl

/-- A hexadecimal digit's character reads back as the digit. -/
theorem hexChar_spec : ∀ d < 16, isTokenChar (hexChar d) = true ∧ hexDigit (hexChar d) = some d := by decide

theorem hexChars_token (k v : Nat) : ∀ c ∈ hexChars k v, isTokenChar c = true := by
  induction k with
  | zero => simp [hexChars]
  | succ k ih =>
    intro c hc
    rcases List.mem_cons.mp hc with rfl | hc
    · exact (hexChar_spec _ (Nat.mod_lt _ (by omega))).1
    · exact ih c hc

/-- Reading hexadecimal digits from an accumulator `a`. -/
theorem hexChars_fold (k v a : Nat) :
    (hexChars k v).foldl (digitStep 16) (some a) = some (a * 16 ^ k + v % 16 ^ k) := by
  induction k generalizing a with
  | zero => simp [hexChars, Nat.mod_one]
  | succ k ih =>
    have hd : v / 16 ^ k % 16 < 16 := Nat.mod_lt _ (by omega)
    simp only [hexChars, List.foldl_cons, digitStep, (hexChar_spec _ hd).2, hd, if_true, ih]
    congr 1
    rw [Nat.pow_succ, Nat.mod_mul]
    ring

/-- The digits of a value that fits them read back as it. -/
theorem tokenValue_hex {k v : Nat} (hk : 0 < k) (hv : v < 16 ^ k) : tokenValue ('0' :: 'x' :: hexChars k v) = some v := by
  cases k with
  | zero => omega
  | succ k =>
    show digitsValue 16 (hexChars (k + 1) v) = some v
    rw [digitsValue, hexChars_fold, Nat.mod_eq_of_lt hv]
    simp

theorem renderHex_token (k v : Nat) : ∀ c ∈ '0' :: 'x' :: hexChars k v, isTokenChar c = true := by
  intro c hc
  rcases List.mem_cons.mp hc with rfl | hc
  · decide
  · rcases List.mem_cons.mp hc with rfl | hc
    · decide
    · exact hexChars_token k v c hc

/-- A number is read up to the end of its token. -/
theorem readNumber_token {tok rest : List Char} {v bound : Nat} (htok : ∀ c ∈ tok, isTokenChar c = true)
    (hrest : EndsToken rest) (hv : tokenValue tok = some v) (hb : v < bound) :
    readNumber bound (tok ++ rest) = some (v, rest) := by
  rw [readNumber, List.takeWhile_append_of_pos htok, List.dropWhile_append_of_pos htok, hrest.1, hrest.2, List.append_nil, hv]
  simp [hb]

theorem readNumber_word (w : CmdWord) {rest : List Char} (h : EndsToken rest) :
    readNumber 65536 (renderWord w ++ rest) = some (w.toNat, rest) :=
  readNumber_token (renderHex_token 4 _) h (tokenValue_hex (by omega) (by simpa using w.isLt)) w.isLt

theorem readNumber_word32 (v : Word32) {rest : List Char} (h : EndsToken rest) :
    readNumber 4294967296 (renderWord32 v ++ rest) = some (v.toNat, rest) :=
  readNumber_token (renderHex_token 8 _) h (tokenValue_hex (by omega) (by simpa using v.isLt)) v.isLt

/-- A byte operand that does not begin with a quote is read as a number. -/
theorem readByte_number {c : Char} (hq : (c.toNat == 39) = false) (cs : List Char) :
    readByte (c :: cs) = (readNumber 256 (c :: cs)).map fun r => (BitVec.ofNat 8 r.1, r.2) := by
  match cs with
  | [] => rfl
  | [_] => rfl
  | _ :: _ :: _ => simp [readByte, hq]

/-- A number token whose value is a byte is read as that byte. -/
theorem readByte_token {c : Char} {cs rest : List Char} (b : Byte) (hq : (c.toNat == 39) = false)
    (htok : ∀ d ∈ c :: cs, isTokenChar d = true) (hrest : EndsToken rest) (hv : tokenValue (c :: cs) = some b.toNat) :
    readByte (c :: cs ++ rest) = some (b, rest) := by
  rw [List.cons_append, readByte_number hq, ← List.cons_append, readNumber_token htok hrest hv b.isLt]
  simp

theorem readByte_hex (b : Byte) {rest : List Char} (h : EndsToken rest) : readByte (renderByte b ++ rest) = some (b, rest) :=
  readByte_token b (by decide) (renderHex_token 2 _) h (tokenValue_hex (by omega) (by simpa using b.isLt))

theorem readByte_charLiteral {c : Char} (hc : c.toNat < 128) (rest : List Char) :
    readByte (renderCharLiteral c ++ rest) = some (BitVec.ofNat 8 c.toNat, rest) := by
  have h39 : (Char.ofNat 39).toNat = 39 := by decide
  simp [renderCharLiteral, readByte, h39, hc]

/-- A rendered byte begins with no blank. -/
theorem skipBlanks_renderByte (b : Byte) (rest : List Char) : skipBlanks (renderByte b ++ rest) = renderByte b ++ rest :=
  skipBlanks_of_not_blank (by decide) _

/-- The items of a rendered list read back, with fuel for each. -/
theorem readListItems_render (m : List Byte) (hm : m ≠ []) (fuel : Nat) (hf : m.length ≤ fuel) (rest : List Char) :
    readListItems fuel (renderListItems m ++ rest) = some (m, rest) := by
  induction m generalizing fuel with
  | nil => exact absurd rfl hm
  | cons b m ih =>
    cases fuel with
    | zero => simp at hf
    | succ fuel =>
      cases m with
      | nil =>
        have hend : EndsToken ([']'] ++ rest) := endsToken_cons (by decide) rest
        rw [renderListItems, List.append_assoc, readListItems, skipBlanks_renderByte, readByte_hex b hend]
        rfl
      | cons c m =>
        have hsep : EndsToken (',' :: ' ' :: (renderListItems (c :: m) ++ rest)) := endsToken_cons (by decide) _
        have hspace : ∀ f, readListItems f (' ' :: (renderListItems (c :: m) ++ rest)) =
            readListItems f (renderListItems (c :: m) ++ rest) := by
          intro f
          cases f <;> simp only [readListItems, skipBlanks_space]
        rw [renderListItems, List.append_assoc, readListItems, skipBlanks_renderByte, List.cons_append, List.cons_append,
          readByte_hex b hsep]
        show (readListItems fuel (' ' :: (renderListItems (c :: m) ++ rest))).map (fun r => (b :: r.1, r.2)) = _
        rw [hspace, ih (by simp) fuel (by simpa using hf)]
        rfl

/-- Each item takes at least one character. -/
theorem length_le_renderListItems (m : List Byte) : m.length ≤ (renderListItems m).length := by
  induction m with
  | nil => simp
  | cons b m ih =>
    cases m with
    | nil => simp [renderListItems]
    | cons c m => simp [renderListItems] at ih ⊢; omega

/-- A rendered list reads back as its bytes. -/
theorem readSeqAtom_list (m : List Byte) (rest : List Char) : readSeqAtom (renderList m ++ rest) = some (m, rest) := by
  cases m with
  | nil => rfl
  | cons b m =>
    have hs : ∀ tail, skipBlanks (renderListItems (b :: m) ++ tail) = renderListItems (b :: m) ++ tail := by
      intro tail
      cases m <;> exact skipBlanks_of_not_blank (by decide) _
    have hz : ∃ tail, renderListItems (b :: m) ++ rest = '0' :: tail := by
      cases m <;> exact ⟨_, rfl⟩
    obtain ⟨tail, ht⟩ := hz
    have hr := readListItems_render (b :: m) (by simp) (renderListItems (b :: m) ++ rest).length
      (by have := length_le_renderListItems (b :: m); simp only [List.length_append]; omega) rest
    show (match skipBlanks (renderListItems (b :: m) ++ rest) with
      | ']' :: rest' => some ([], rest')
      | _ => readListItems (renderListItems (b :: m) ++ rest).length (renderListItems (b :: m) ++ rest)) = _
    rw [hs rest, hr, ht]
    rfl

/-- A text in double quotes reads back as its characters' codes. -/
theorem readSeqAtom_text {cs : List Char} (hcs : ∀ c ∈ cs, c.toNat < 128 ∧ c.toNat ≠ 34) (rest : List Char) :
    readSeqAtom (renderText cs ++ rest) = some (textBytes cs, rest) := by
  have h34 : (Char.ofNat 34).toNat = 34 := by decide
  have hne : ∀ c ∈ cs, (c.toNat != 34) = true := fun c hc => by simpa using (hcs c hc).2
  have hall : cs.all (fun c => decide (c.toNat < 128)) = true := by
    simp only [List.all_eq_true, decide_eq_true_eq]
    exact fun c hc => (hcs c hc).1
  have ht : (cs ++ (Char.ofNat 34 :: rest)).takeWhile (fun c => c.toNat != 34) = cs := by
    rw [List.takeWhile_append_of_pos hne]
    simp [h34]
  have hd : (cs ++ (Char.ofNat 34 :: rest)).dropWhile (fun c => c.toNat != 34) = Char.ofNat 34 :: rest := by
    rw [List.dropWhile_append_of_pos hne]
    simp [h34]
  have hr : renderText cs ++ rest = Char.ofNat 34 :: (cs ++ (Char.ofNat 34 :: rest)) := by simp [renderText]
  rw [hr, readSeqAtom]
  · simp only [h34, ht, hd, hall]
    rfl
  · exact fun h => absurd h (by decide)

/-- One sequence, where no `++` follows. -/
theorem readSeq_of_atom {cs rest : List Char} {m : List Byte} {fuel : Nat} (hf : 0 < fuel)
    (hatom : readSeqAtom (skipBlanks cs) = some (m, rest)) (hplus : ∀ r, skipBlanks rest ≠ '+' :: '+' :: r) :
    readSeq fuel cs = some (m, rest) := by
  cases fuel with
  | zero => omega
  | succ fuel =>
    rw [readSeq, hatom]
    simp only

/-- A line that begins with a mnemonic and whose operands are read up to the line's end. -/
theorem assembleLine_of_operands {c : Char} {cs rest rest' : List Char} {l : AsmLine}
    (hall : (c :: cs).all isTokenChar = true) (hblank : isBlankChar c = false) (hsemi : (c.toNat == 59) = false)
    (hrest : EndsToken rest) (hread : readOperands (c :: cs) rest = some (l, rest')) (hend : isLineEnd rest' = true) :
    assembleLine (c :: cs ++ rest) = some (expandLine l) := by
  have htok : ∀ d ∈ c :: cs, isTokenChar d = true := List.all_eq_true.mp hall
  have hs : skipBlanks (c :: cs ++ rest) = c :: cs ++ rest := skipBlanks_of_not_blank hblank _
  have he : isLineEnd (c :: cs ++ rest) = false := by
    rw [isLineEnd, hs]
    exact hsemi
  rw [assembleLine, he, hs]
  simp only [List.takeWhile_append_of_pos htok, List.dropWhile_append_of_pos htok, hrest.1, hrest.2, List.append_nil, hread, hend]
  rfl

end Sys2Proof.Machine
end

