-- ==== Sys2Proof/Laws/Crc.lean ====
section
/-!
SUPPORT. The bits of one iteration of the datapath and of the parameter model, from which the checksum's laws are built.
-/
namespace Sys2Proof.Machine

/-- One iteration as a shift XORed with the polynomial or 0 (spec/40_crc_commands.md R76). -/
theorem reflectedShift_eq (a : Word32) :
    reflectedShift a = (a >>> 1) ^^^ (if a.getLsbD 0 then Config.polyR else 0#32) := by
  unfold reflectedShift
  split <;> simp

theorem normalShift_eq (a : Word32) :
    normalShift a = (a <<< 1) ^^^ (if a.getLsbD 31 then Config.poly else 0#32) := by
  unfold normalShift
  split <;> simp

/-- One iteration is linear over GF(2). -/
theorem reflectedShift_xor (a b : Word32) : reflectedShift (a ^^^ b) = reflectedShift a ^^^ reflectedShift b := by
  simp only [reflectedShift_eq, BitVec.getLsbD_xor, BitVec.ushiftRight_xor_distrib]
  apply BitVec.eq_of_getLsbD_eq
  intro i hi
  cases ha : a.getLsbD 0 <;> cases hb : b.getLsbD 0 <;> simp only [Bool.xor_false, Bool.xor_true, Bool.not_true,
    Bool.not_false, if_true, if_false, Bool.false_eq_true, BitVec.getLsbD_xor, BitVec.getLsbD_zero] <;>
    cases (a >>> 1).getLsbD i <;> cases (b >>> 1).getLsbD i <;> cases Config.polyR.getLsbD i <;> rfl

/-- Several iterations are linear. -/
theorem reflectedShift_iterate_xor (k : Nat) (a b : Word32) :
    reflectedShift^[k] (a ^^^ b) = reflectedShift^[k] a ^^^ reflectedShift^[k] b := by
  induction k generalizing a b with
  | zero => rfl
  | succ k ih => simp only [Function.iterate_succ, Function.comp_apply, reflectedShift_xor, ih]

/-- `POLY_R` has its top bit set, so an iteration's input is known from its output. -/
theorem reflectedShift_injective : Function.Injective reflectedShift := by
  intro a b h
  have top : ∀ x : Word32, (reflectedShift x).getLsbD 31 = x.getLsbD 0 := by
    intro x
    rw [reflectedShift_eq]
    cases hx : x.getLsbD 0 <;> simp [Config.polyR]
  have h0 : a.getLsbD 0 = b.getLsbD 0 := by rw [← top a, ← top b, h]
  have hs : a >>> 1 = b >>> 1 := by
    have h' := h
    rw [reflectedShift_eq, reflectedShift_eq, h0] at h'
    simpa using h'
  apply BitVec.eq_of_getLsbD_eq
  intro i hi
  cases i with
  | zero => exact h0
  | succ i =>
    have := congrArg (fun v : Word32 => v.getLsbD i) hs
    simpa [Nat.add_comm] using this

/-- A byte at a time: folding over an appended stream. -/
theorem accOf_append (m n : List Byte) : accOf (m ++ n) = n.foldl crcStep (accOf m) := List.foldl_append

end Sys2Proof.Machine
end

