-- ==== Sys2Proof/Laws/Encoding.lean ====
section
/-!
SUPPORT. The fields of a packed word, and every word as the pack of its fields.
-/
namespace Sys2Proof

theorem opField_toNat (w : CmdWord) : (opField w).toNat = w.toNat / 0x1000 := by
  have := w.isLt
  simp [opField, BitVec.extractLsb'_toNat, Nat.shiftRight_eq_div_pow]
  omega

theorem zField_toNat (w : CmdWord) : (zField w).toNat = w.toNat / 0x100 % 0x10 := by
  simp [zField, BitVec.extractLsb'_toNat, Nat.shiftRight_eq_div_pow]

theorem bField_toNat (w : CmdWord) : (bField w).toNat = w.toNat % 0x100 := by
  simp [bField, BitVec.extractLsb'_toNat]

theorem packWord_toNat (op z : BitVec 4) (b : Byte) :
    (packWord op z b).toNat = op.toNat * 0x1000 + z.toNat * 0x100 + b.toNat := by
  have hz := z.isLt
  have hb := b.isLt
  show ((op ++ z) ++ b : BitVec (4 + 4 + 8)).toNat = _
  rw [BitVec.toNat_append, ← Nat.shiftLeft_add_eq_or_of_lt hb, BitVec.toNat_append, ← Nat.shiftLeft_add_eq_or_of_lt hz,
    Nat.shiftLeft_eq, Nat.shiftLeft_eq]
  omega

theorem opField_packWord (op z : BitVec 4) (b : Byte) : opField (packWord op z b) = op := by
  apply BitVec.eq_of_toNat_eq
  have hz := z.isLt
  have hb := b.isLt
  rw [opField_toNat, packWord_toNat]
  omega

theorem zField_packWord (op z : BitVec 4) (b : Byte) : zField (packWord op z b) = z := by
  apply BitVec.eq_of_toNat_eq
  have hz := z.isLt
  have hb := b.isLt
  rw [zField_toNat, packWord_toNat]
  omega

theorem bField_packWord (op z : BitVec 4) (b : Byte) : bField (packWord op z b) = b := by
  apply BitVec.eq_of_toNat_eq
  have hb := b.isLt
  rw [bField_toNat, packWord_toNat]
  omega

theorem packWord_fields (w : CmdWord) : packWord (opField w) (zField w) (bField w) = w := by
  apply BitVec.eq_of_toNat_eq
  rw [packWord_toNat, opField_toNat, zField_toNat, bField_toNat]
  omega

theorem isReserved_iff (w : CmdWord) :
    isReserved w = true ↔
      0x5000 ≤ w.toNat ∨ (w.toNat < 0x5000 ∧ w.toNat / 0x100 % 0x10 ≠ 0) ∨
        ((w.toNat / 0x1000 = 0 ∨ w.toNat / 0x1000 = 1 ∨ w.toNat / 0x1000 = 4) ∧ w.toNat % 0x100 ≠ 0) := by
  simp [isReserved, opUnassigned, zNonzero, bNonzero, or_assoc]

theorem opField_eq_iff (w : CmdWord) {k : Nat} (hk : k < 16) : opField w = BitVec.ofNat 4 k ↔ w.toNat / 0x1000 = k := by
  rw [← BitVec.toNat_inj, opField_toNat, BitVec.toNat_ofNat]
  omega

theorem zField_eq_iff (w : CmdWord) {k : Nat} (hk : k < 16) : zField w = BitVec.ofNat 4 k ↔ w.toNat / 0x100 % 0x10 = k := by
  rw [← BitVec.toNat_inj, zField_toNat, BitVec.toNat_ofNat]
  omega

theorem bField_eq_iff (w : CmdWord) {k : Nat} (hk : k < 256) : bField w = BitVec.ofNat 8 k ↔ w.toNat % 0x100 = k := by
  rw [← BitVec.toNat_inj, bField_toNat, BitVec.toNat_ofNat]
  omega

/-- Everything the decoder can answer, by the number the word is. -/
theorem decode_cases (w : CmdWord) :
    (w.toNat = 0 ∧ decode w = .nop) ∨ (w.toNat = 0x1000 ∧ decode w = .init) ∨
      (w.toNat / 0x100 = 0x20 ∧ decode w = .feed (bField w)) ∨
      (w.toNat / 0x100 = 0x30 ∧ decode w = .expect (bField w)) ∨
      (w.toNat = 0x4000 ∧ decode w = .check) ∨ (isReserved w = true ∧ decode w = .reserved w) := by
  have hz := zField_eq_iff w (k := 0) (by omega)
  have hb := bField_eq_iff w (k := 0) (by omega)
  have h0 := opField_eq_iff w (k := 0) (by omega)
  have h1 := opField_eq_iff w (k := 1) (by omega)
  have h2 := opField_eq_iff w (k := 2) (by omega)
  have h3 := opField_eq_iff w (k := 3) (by omega)
  have h4 := opField_eq_iff w (k := 4) (by omega)
  have hw := w.isLt
  simp only [decode, ne_eq, hz, hb, h0, h1, h2, h3, h4, isReserved_iff]
  split_ifs <;> simp <;> omega

end Sys2Proof
end

