-- ==== Sys2Proof/Laws/State.lean ====
section
/-!
SUPPORT. One lemma per field per update of the state, each true by unfolding, so that no later proof unfolds a record update;
and `state_eq` to compare two states field by field.
-/
namespace Sys2Proof.Machine

@[simp] theorem clearVerdict_acc (s : State) : (clearVerdict s).acc = s.acc := rfl
@[simp] theorem clearVerdict_exp (s : State) : (clearVerdict s).exp = s.exp := rfl
@[simp] theorem clearVerdict_expCnt (s : State) : (clearVerdict s).expCnt = s.expCnt := rfl
@[simp] theorem clearVerdict_done (s : State) : (clearVerdict s).done = false := rfl
@[simp] theorem clearVerdict_matched (s : State) : (clearVerdict s).matched = false := rfl
@[simp] theorem clearVerdict_ckerr (s : State) : (clearVerdict s).ckerr = false := rfl
@[simp] theorem clearVerdict_trunc (s : State) : (clearVerdict s).trunc = false := rfl
@[simp] theorem clearVerdict_ovr (s : State) : (clearVerdict s).ovr = s.ovr := rfl
@[simp] theorem clearVerdict_ill (s : State) : (clearVerdict s).ill = s.ill := rfl
@[simp] theorem clearVerdict_input (s : State) : (clearVerdict s).input = s.input := rfl

@[simp] theorem startChecksum_acc (s : State) : (startChecksum s).acc = Config.crcInit := rfl
@[simp] theorem startChecksum_exp (s : State) : (startChecksum s).exp = 0x00000000#32 := rfl
@[simp] theorem startChecksum_expCnt (s : State) : (startChecksum s).expCnt = 0#3 := rfl
@[simp] theorem startChecksum_done (s : State) : (startChecksum s).done = false := rfl
@[simp] theorem startChecksum_matched (s : State) : (startChecksum s).matched = false := rfl
@[simp] theorem startChecksum_ckerr (s : State) : (startChecksum s).ckerr = false := rfl
@[simp] theorem startChecksum_trunc (s : State) : (startChecksum s).trunc = false := rfl
@[simp] theorem startChecksum_ovr (s : State) : (startChecksum s).ovr = false := rfl
@[simp] theorem startChecksum_ill (s : State) : (startChecksum s).ill = s.ill := rfl
@[simp] theorem startChecksum_input (s : State) : (startChecksum s).input = s.input := rfl

@[simp] theorem absorbByte_acc (b : Byte) (s : State) : (absorbByte b s).acc = crcStep s.acc b := rfl
@[simp] theorem absorbByte_exp (b : Byte) (s : State) : (absorbByte b s).exp = s.exp := rfl
@[simp] theorem absorbByte_expCnt (b : Byte) (s : State) : (absorbByte b s).expCnt = s.expCnt := rfl
@[simp] theorem absorbByte_done (b : Byte) (s : State) : (absorbByte b s).done = s.done := rfl
@[simp] theorem absorbByte_matched (b : Byte) (s : State) : (absorbByte b s).matched = s.matched := rfl
@[simp] theorem absorbByte_ckerr (b : Byte) (s : State) : (absorbByte b s).ckerr = s.ckerr := rfl
@[simp] theorem absorbByte_trunc (b : Byte) (s : State) : (absorbByte b s).trunc = s.trunc := rfl
@[simp] theorem absorbByte_ovr (b : Byte) (s : State) : (absorbByte b s).ovr = s.ovr := rfl
@[simp] theorem absorbByte_ill (b : Byte) (s : State) : (absorbByte b s).ill = s.ill := rfl
@[simp] theorem absorbByte_input (b : Byte) (s : State) : (absorbByte b s).input = s.input := rfl

@[simp] theorem appendExpected_acc (b : Byte) (s : State) : (appendExpected b s).acc = s.acc := rfl
@[simp] theorem appendExpected_exp (b : Byte) (s : State) : (appendExpected b s).exp = shiftInByte s.exp b := rfl
@[simp] theorem appendExpected_expCnt (b : Byte) (s : State) : (appendExpected b s).expCnt = nextCount b s := rfl
@[simp] theorem appendExpected_done (b : Byte) (s : State) : (appendExpected b s).done = s.done := rfl
@[simp] theorem appendExpected_matched (b : Byte) (s : State) : (appendExpected b s).matched = s.matched := rfl
@[simp] theorem appendExpected_ckerr (b : Byte) (s : State) : (appendExpected b s).ckerr = s.ckerr := rfl
@[simp] theorem appendExpected_trunc (b : Byte) (s : State) : (appendExpected b s).trunc = s.trunc := rfl
@[simp] theorem appendExpected_ovr (b : Byte) (s : State) : (appendExpected b s).ovr = s.ovr := rfl
@[simp] theorem appendExpected_ill (b : Byte) (s : State) : (appendExpected b s).ill = s.ill := rfl
@[simp] theorem appendExpected_input (b : Byte) (s : State) : (appendExpected b s).input = s.input := rfl

@[simp] theorem recordMatch_acc (m : Bool) (s : State) : (recordMatch m s).acc = s.acc := rfl
@[simp] theorem recordMatch_exp (m : Bool) (s : State) : (recordMatch m s).exp = s.exp := rfl
@[simp] theorem recordMatch_expCnt (m : Bool) (s : State) : (recordMatch m s).expCnt = s.expCnt := rfl
@[simp] theorem recordMatch_done (m : Bool) (s : State) : (recordMatch m s).done = true := rfl
@[simp] theorem recordMatch_matched (m : Bool) (s : State) : (recordMatch m s).matched = m := rfl
@[simp] theorem recordMatch_ckerr (m : Bool) (s : State) : (recordMatch m s).ckerr = s.ckerr := rfl
@[simp] theorem recordMatch_trunc (m : Bool) (s : State) : (recordMatch m s).trunc = s.trunc := rfl
@[simp] theorem recordMatch_ovr (m : Bool) (s : State) : (recordMatch m s).ovr = s.ovr := rfl
@[simp] theorem recordMatch_ill (m : Bool) (s : State) : (recordMatch m s).ill = s.ill := rfl
@[simp] theorem recordMatch_input (m : Bool) (s : State) : (recordMatch m s).input = s.input := rfl

@[simp] theorem applyReset_acc (s : State) : (applyReset s).acc = Config.crcInit := rfl
@[simp] theorem applyReset_exp (s : State) : (applyReset s).exp = 0x00000000#32 := rfl
@[simp] theorem applyReset_expCnt (s : State) : (applyReset s).expCnt = 0#3 := rfl
@[simp] theorem applyReset_done (s : State) : (applyReset s).done = false := rfl
@[simp] theorem applyReset_matched (s : State) : (applyReset s).matched = false := rfl
@[simp] theorem applyReset_ckerr (s : State) : (applyReset s).ckerr = false := rfl
@[simp] theorem applyReset_trunc (s : State) : (applyReset s).trunc = false := rfl
@[simp] theorem applyReset_ovr (s : State) : (applyReset s).ovr = false := rfl
@[simp] theorem applyReset_ill (s : State) : (applyReset s).ill = false := rfl
@[simp] theorem applyReset_input (s : State) : (applyReset s).input = s.input := rfl

@[simp] theorem presentWord_acc (w : CmdWord) (s : State) : (presentWord w s).acc = s.acc := rfl
@[simp] theorem presentWord_exp (w : CmdWord) (s : State) : (presentWord w s).exp = s.exp := rfl
@[simp] theorem presentWord_expCnt (w : CmdWord) (s : State) : (presentWord w s).expCnt = s.expCnt := rfl
@[simp] theorem presentWord_done (w : CmdWord) (s : State) : (presentWord w s).done = s.done := rfl
@[simp] theorem presentWord_matched (w : CmdWord) (s : State) : (presentWord w s).matched = s.matched := rfl
@[simp] theorem presentWord_ckerr (w : CmdWord) (s : State) : (presentWord w s).ckerr = s.ckerr := rfl
@[simp] theorem presentWord_trunc (w : CmdWord) (s : State) : (presentWord w s).trunc = s.trunc := rfl
@[simp] theorem presentWord_ovr (w : CmdWord) (s : State) : (presentWord w s).ovr = s.ovr := rfl
@[simp] theorem presentWord_ill (w : CmdWord) (s : State) : (presentWord w s).ill = s.ill := rfl
@[simp] theorem presentWord_input (w : CmdWord) (s : State) : (presentWord w s).input = .command .host w :: s.input := rfl

@[simp] theorem raise_checksumMismatch_acc (s : State) : (raise .checksumMismatch s).acc = s.acc := rfl
@[simp] theorem raise_checksumMismatch_exp (s : State) : (raise .checksumMismatch s).exp = s.exp := rfl
@[simp] theorem raise_checksumMismatch_expCnt (s : State) : (raise .checksumMismatch s).expCnt = s.expCnt := rfl
@[simp] theorem raise_checksumMismatch_done (s : State) : (raise .checksumMismatch s).done = s.done := rfl
@[simp] theorem raise_checksumMismatch_matched (s : State) : (raise .checksumMismatch s).matched = s.matched := rfl
@[simp] theorem raise_checksumMismatch_ckerr (s : State) : (raise .checksumMismatch s).ckerr = true := rfl
@[simp] theorem raise_checksumMismatch_trunc (s : State) : (raise .checksumMismatch s).trunc = s.trunc := rfl
@[simp] theorem raise_checksumMismatch_ovr (s : State) : (raise .checksumMismatch s).ovr = s.ovr := rfl
@[simp] theorem raise_checksumMismatch_ill (s : State) : (raise .checksumMismatch s).ill = s.ill := rfl
@[simp] theorem raise_checksumMismatch_input (s : State) : (raise .checksumMismatch s).input = s.input := rfl

@[simp] theorem raise_truncatedInput_acc (s : State) : (raise .truncatedInput s).acc = s.acc := rfl
@[simp] theorem raise_truncatedInput_exp (s : State) : (raise .truncatedInput s).exp = s.exp := rfl
@[simp] theorem raise_truncatedInput_expCnt (s : State) : (raise .truncatedInput s).expCnt = s.expCnt := rfl
@[simp] theorem raise_truncatedInput_done (s : State) : (raise .truncatedInput s).done = s.done := rfl
@[simp] theorem raise_truncatedInput_matched (s : State) : (raise .truncatedInput s).matched = s.matched := rfl
@[simp] theorem raise_truncatedInput_ckerr (s : State) : (raise .truncatedInput s).ckerr = s.ckerr := rfl
@[simp] theorem raise_truncatedInput_trunc (s : State) : (raise .truncatedInput s).trunc = true := rfl
@[simp] theorem raise_truncatedInput_ovr (s : State) : (raise .truncatedInput s).ovr = s.ovr := rfl
@[simp] theorem raise_truncatedInput_ill (s : State) : (raise .truncatedInput s).ill = s.ill := rfl
@[simp] theorem raise_truncatedInput_input (s : State) : (raise .truncatedInput s).input = s.input := rfl

@[simp] theorem raise_expectOverrun_acc (s : State) : (raise .expectOverrun s).acc = s.acc := rfl
@[simp] theorem raise_expectOverrun_exp (s : State) : (raise .expectOverrun s).exp = s.exp := rfl
@[simp] theorem raise_expectOverrun_expCnt (s : State) : (raise .expectOverrun s).expCnt = s.expCnt := rfl
@[simp] theorem raise_expectOverrun_done (s : State) : (raise .expectOverrun s).done = s.done := rfl
@[simp] theorem raise_expectOverrun_matched (s : State) : (raise .expectOverrun s).matched = s.matched := rfl
@[simp] theorem raise_expectOverrun_ckerr (s : State) : (raise .expectOverrun s).ckerr = s.ckerr := rfl
@[simp] theorem raise_expectOverrun_trunc (s : State) : (raise .expectOverrun s).trunc = s.trunc := rfl
@[simp] theorem raise_expectOverrun_ovr (s : State) : (raise .expectOverrun s).ovr = true := rfl
@[simp] theorem raise_expectOverrun_ill (s : State) : (raise .expectOverrun s).ill = s.ill := rfl
@[simp] theorem raise_expectOverrun_input (s : State) : (raise .expectOverrun s).input = s.input := rfl

@[simp] theorem raise_illegalCommand_acc (s : State) : (raise .illegalCommand s).acc = s.acc := rfl
@[simp] theorem raise_illegalCommand_exp (s : State) : (raise .illegalCommand s).exp = s.exp := rfl
@[simp] theorem raise_illegalCommand_expCnt (s : State) : (raise .illegalCommand s).expCnt = s.expCnt := rfl
@[simp] theorem raise_illegalCommand_done (s : State) : (raise .illegalCommand s).done = s.done := rfl
@[simp] theorem raise_illegalCommand_matched (s : State) : (raise .illegalCommand s).matched = s.matched := rfl
@[simp] theorem raise_illegalCommand_ckerr (s : State) : (raise .illegalCommand s).ckerr = s.ckerr := rfl
@[simp] theorem raise_illegalCommand_trunc (s : State) : (raise .illegalCommand s).trunc = s.trunc := rfl
@[simp] theorem raise_illegalCommand_ovr (s : State) : (raise .illegalCommand s).ovr = s.ovr := rfl
@[simp] theorem raise_illegalCommand_ill (s : State) : (raise .illegalCommand s).ill = true := rfl
@[simp] theorem raise_illegalCommand_input (s : State) : (raise .illegalCommand s).input = s.input := rfl

@[simp] theorem reset_acc : State.reset.acc = Config.crcInit := rfl
@[simp] theorem reset_exp : State.reset.exp = 0x00000000#32 := rfl
@[simp] theorem reset_expCnt : State.reset.expCnt = 0#3 := rfl
@[simp] theorem reset_done : State.reset.done = false := rfl
@[simp] theorem reset_matched : State.reset.matched = false := rfl
@[simp] theorem reset_ckerr : State.reset.ckerr = false := rfl
@[simp] theorem reset_trunc : State.reset.trunc = false := rfl
@[simp] theorem reset_ovr : State.reset.ovr = false := rfl
@[simp] theorem reset_ill : State.reset.ill = false := rfl
@[simp] theorem reset_input : State.reset.input = [] := rfl

/-- Two states with the same fields are one state. -/
theorem state_eq {s t : State} (hacc : s.acc = t.acc) (hexp : s.exp = t.exp) (hcnt : s.expCnt = t.expCnt)
    (hdone : s.done = t.done) (hmatched : s.matched = t.matched) (hckerr : s.ckerr = t.ckerr) (htrunc : s.trunc = t.trunc)
    (hovr : s.ovr = t.ovr) (hill : s.ill = t.ill) (hinput : s.input = t.input) : s = t := by
  cases s; cases t; simp_all

end Sys2Proof.Machine
end

