-- ==== Sys2Proof/Laws/Ops.lean ====
section
/-!
SUPPORT. What each shared operation can do, said once: the conditions of the flags, raising, taking an input, the outputs.
-/
namespace Sys2Proof.Machine

theorem raiseWhen_true (e : Exc) (s : State) : raiseWhen true e s = raise e s := rfl

theorem raiseWhen_false (e : Exc) (s : State) : raiseWhen false e s = s := rfl

/-- Raising an exception or not: one of the two. -/
theorem raiseWhen_cases (c : Bool) (e : Exc) (s : State) :
    (c = true ∧ raiseWhen c e s = raise e s) ∨ (c = false ∧ raiseWhen c e s = s) := by
  cases c
  · exact .inr ⟨rfl, rfl⟩
  · exact .inl ⟨rfl, rfl⟩

theorem comparable_iff (s : State) : comparable s = true ↔ s.expCnt = 4#3 ∧ s.ovr = false := by
  simp [comparable, Config.expBytes]

theorem matchCond_iff (s : State) : matchCond s = true ↔ (s.expCnt = 4#3 ∧ s.ovr = false) ∧ crcOut s = s.exp := by
  simp [matchCond, comparable_iff]

theorem mismatchCond_iff (s : State) : mismatchCond s = true ↔ (s.expCnt = 4#3 ∧ s.ovr = false) ∧ crcOut s ≠ s.exp := by
  simp [mismatchCond, comparable_iff]

theorem truncCond_iff (s : State) : truncCond s = true ↔ s.expCnt.toNat < 4 := by
  simp [truncCond, Config.expBytes, BitVec.lt_def]

theorem overrunCond_iff (s : State) : overrunCond s = true ↔ s.expCnt = 4#3 := by
  simp [overrunCond, Config.expBytes]

/-- Below 7 the count EXPECT writes is the sum. -/
theorem nextCount_of_ne_seven (b : Byte) {s : State} (h : s.expCnt ≠ 7#3) : nextCount b s = s.expCnt + 1#3 := by
  simp [nextCount, h]

/-- While the field is short, counting one more byte does not wrap. -/
theorem nextCount_toNat (b : Byte) {s : State} (h : s.expCnt.toNat < 4) : (nextCount b s).toNat = s.expCnt.toNat + 1 := by
  have h7 : s.expCnt ≠ 7#3 := by
    intro h'
    rw [h'] at h
    exact absurd h (by decide)
  rw [nextCount_of_ne_seven b h7, BitVec.toNat_add]
  simp
  omega

theorem takeInput_nil {s : State} (h : s.input = []) : takeInput s = none := by
  simp [takeInput, h]

theorem takeInput_cons {s : State} {i : Input} {rest : List Input} (h : s.input = i :: rest) :
    takeInput s = some (i, { s with input := rest }) := by
  simp [takeInput, h]

/-- Presenting a word and taking the next input gives that word and the state as it was. -/
@[simp] theorem takeInput_presentWord (w : CmdWord) (s : State) :
    takeInput (presentWord w s) = some (.command .host w, s) := rfl

theorem crcOut_eq_iff (s : State) (v : Word32) : crcOut s = v ↔ s.acc = v ^^^ Config.xorOut := by
  constructor
  · rintro rfl
    simp [crcOut]
  · intro h
    simp [crcOut, h]

end Sys2Proof.Machine
end

