-- ==== Sys2Proof/Laws/Exec.lean ====
section
/-!
SUPPORT. What the meanings, an input, a step and an issued sequence can do, said once.
-/
namespace Sys2Proof.Machine

/-- The state a command leaves: the meaning's next state, as a function of the instruction. -/
def after (i : Instr) (s : State) : State :=
  match i with
  | .nop => s
  | .init => startChecksum s
  | .feed b => clearVerdict (absorbByte b s)
  | .expect b => clearVerdict (if overrunCond s then raise .expectOverrun s else appendExpected b s)
  | .check =>
    raiseWhen (truncCond s) .truncatedInput
      (raiseWhen (mismatchCond s) .checksumMismatch (recordMatch (matchCond s) (clearVerdict s)))
  | .reserved _ => raise .illegalCommand s

/-- Every command has exactly one next state. -/
theorem exec_eq_after (i : Instr) (s : State) : exec i s = .next (after i s) := by
  cases i <;> rfl

theorem exec_next_iff {i : Instr} {s t : State} : exec i s = .next t ↔ t = after i s := by
  rw [exec_eq_after]
  constructor
  · intro h
    cases h
    rfl
  · rintro rfl
    rfl

/-- EXPECT's next state, by whether the field is full. -/
theorem after_expect_full (b : Byte) {s : State} (h : s.expCnt = 4#3) :
    after (.expect b) s = clearVerdict (raise .expectOverrun s) := by
  simp [after, (overrunCond_iff s).mpr h]

theorem after_expect_short (b : Byte) {s : State} (h : s.expCnt ≠ 4#3) :
    after (.expect b) s = clearVerdict (appendExpected b s) := by
  have h' : overrunCond s = false := Bool.eq_false_iff.mpr fun hc => h ((overrunCond_iff s).mp hc)
  simp [after, h']

/-- CHECK's next state: the three conditions are its three verdict flags, and DONE is set. -/
theorem after_check_eq (s : State) :
    after .check s =
      { s with done := true, matched := matchCond s, ckerr := mismatchCond s, trunc := truncCond s } := by
  cases ht : truncCond s <;> cases hm : mismatchCond s <;>
    simp [after, ht, hm, raiseWhen, raise, recordMatch, clearVerdict]

/-- No command touches what the host presents later. -/
@[simp] theorem after_input (i : Instr) (s : State) : (after i s).input = s.input := by
  cases i with
  | expect b => by_cases h : s.expCnt = 4#3 <;> simp [after_expect_full, after_expect_short, h]
  | check => simp [after_check_eq]
  | _ => rfl

/-- Before a command reads anything, what the host presents later does not matter to it. -/
theorem after_with_input (i : Instr) (s : State) (l : List Input) :
    after i { s with input := l } = { after i s with input := l } := by
  cases i with
  | expect b =>
    by_cases h : s.expCnt = 4#3
    · rw [after_expect_full b h, after_expect_full b (s := { s with input := l }) h]
      rfl
    · rw [after_expect_short b h, after_expect_short b (s := { s with input := l }) h]
      rfl
  | check => simp only [after_check_eq]; rfl
  | _ => rfl

theorem step_nil {s : State} (h : s.input = []) : step s = .next s := by
  simp [step, takeInput_nil h]

theorem step_cons {s : State} {i : Input} {rest : List Input} (h : s.input = i :: rest) :
    step s = react i { s with input := rest } := by
  simp [step, takeInput_cons h]

/-- If an input ends in a next state, it was a reset or a command of the one host. -/
theorem react_cases {i : Input} {s t : State} (h : react i s = .next t) :
    (i = .reset ∧ t = applyReset s) ∨ (∃ w, i = .command .host w ∧ t = after (decode w) s) := by
  cases i with
  | reset =>
    cases h
    exact .inl ⟨rfl, rfl⟩
  | command d w =>
    cases d with
    | host => exact .inr ⟨w, rfl, exec_next_iff.mp h⟩
    | other => cases h

/-- If a step ends in a next state, it was idle, a reset, or a command of the one host. -/
theorem step_cases {s t : State} (h : step s = .next t) :
    (s.input = [] ∧ t = s) ∨
      ∃ i rest, s.input = i :: rest ∧
        ((i = .reset ∧ t = applyReset { s with input := rest }) ∨
          ∃ w, i = .command .host w ∧ t = after (decode w) { s with input := rest }) := by
  cases hi : s.input with
  | nil =>
    rw [step_nil hi] at h
    cases h
    exact .inl ⟨rfl, rfl⟩
  | cons i rest =>
    rw [step_cons hi] at h
    exact .inr ⟨i, rest, rfl, react_cases h⟩

theorem issue_eq (w : CmdWord) (s : State) : issue w s = .next (after (decode w) s) := by
  rw [issue, step, takeInput_presentWord]
  exact exec_eq_after _ _

/-- The state a sequence of words leaves. -/
def afterAll (ws : List CmdWord) (s : State) : State := ws.foldl (fun u w => after (decode w) u) s

@[simp] theorem afterAll_nil (s : State) : afterAll [] s = s := rfl

@[simp] theorem afterAll_cons (w : CmdWord) (ws : List CmdWord) (s : State) :
    afterAll (w :: ws) s = afterAll ws (after (decode w) s) := rfl

theorem afterAll_append (ws vs : List CmdWord) (s : State) : afterAll (ws ++ vs) s = afterAll vs (afterAll ws s) :=
  List.foldl_append

/-- Every sequence of words has exactly one next state. -/
theorem issueAll_eq (ws : List CmdWord) (s : State) : issueAll ws s = .next (afterAll ws s) := by
  induction ws generalizing s with
  | nil => rfl
  | cons w ws ih => simp [issueAll, issue_eq, ih]

theorem issueAll_next_iff {ws : List CmdWord} {s t : State} : issueAll ws s = .next t ↔ t = afterAll ws s := by
  rw [issueAll_eq]
  constructor
  · intro h
    cases h
    rfl
  · rintro rfl
    rfl

theorem decode_feed_word (b : Byte) : decode (encode (.feed b)) = .feed b := by
  simp [decode, encode, opField_packWord, zField_packWord, bField_packWord]

theorem decode_expect_word (b : Byte) : decode (encode (.expect b)) = .expect b := by
  simp [decode, encode, opField_packWord, zField_packWord, bField_packWord]

/-- FEEDs from a state without a verdict change `ACC` alone. -/
theorem afterAll_feeds (m : List Byte) {s : State} (hdone : s.done = false) (hmatched : s.matched = false)
    (hckerr : s.ckerr = false) (htrunc : s.trunc = false) :
    afterAll (feeds m) s = { s with acc := m.foldl crcStep s.acc } := by
  induction m generalizing s with
  | nil => rfl
  | cons b m ih =>
    have h : afterAll (feeds (b :: m)) s = afterAll (feeds m) (clearVerdict (absorbByte b s)) := by
      show afterAll (feeds m) (after (decode (encode (.feed b))) s) = _
      rw [decode_feed_word]
      rfl
    rw [h, ih rfl rfl rfl rfl]
    exact state_eq rfl rfl rfl hdone.symm hmatched.symm hckerr.symm htrunc.symm rfl rfl rfl

end Sys2Proof.Machine
end

