-- ==== Sys2Proof/Laws/PerInstr.lean ====
section
/-!
SUPPORT. The family `LegalWord`: the word of every command but a reserved one has a zero `Z` field and its own `OP`
(spec/30_encoding.md R50, R52), and the word of a reserved one is a reserved word (R54). One lemma per constructor.
-/
namespace Sys2Proof.Laws.LegalWord

/-- The opcode R52 gives a command, none for a reserved word. -/
def opcode (i : Instr) : Option (BitVec 4) :=
  match i with
  | .nop => some 0x0#4
  | .init => some 0x1#4
  | .feed _ => some 0x2#4
  | .expect _ => some 0x3#4
  | .check => some 0x4#4
  | .reserved _ => none

/-- The word of a well-formed instruction has the fields R50 and R52 give it. -/
def Statement (i : Instr) : Prop :=
  WellFormed i = true →
    match opcode i with
    | some op => opField (encode i) = op ∧ zField (encode i) = 0x0#4
    | none => isReserved (encode i) = true

theorem nop : Statement .nop := fun _ => ⟨opField_packWord _ _ _, zField_packWord _ _ _⟩

theorem init : Statement .init := fun _ => ⟨opField_packWord _ _ _, zField_packWord _ _ _⟩

theorem feed (b : Byte) : Statement (.feed b) := fun _ => ⟨opField_packWord _ _ _, zField_packWord _ _ _⟩

theorem expect (b : Byte) : Statement (.expect b) := fun _ => ⟨opField_packWord _ _ _, zField_packWord _ _ _⟩

theorem check : Statement .check := fun _ => ⟨opField_packWord _ _ _, zField_packWord _ _ _⟩

theorem reserved (w : CmdWord) : Statement (.reserved w) := fun h => h

end Sys2Proof.Laws.LegalWord
end

