-- ==== Sys2Proof/Tests/Slice0.lean ====
section
/-!
SUPPORT. The model's own tests. Every expected value is from the spec's encodings (spec/30_encoding.md) or its test vectors
(spec/95_test_vectors.md, named V<n>). The theorems `test_wit_…` show states and operands that meet the hypotheses of the
statements, at the values where clauses meet.
-/
namespace Sys2Proof.Tests

open Sys2Proof Sys2Proof.Machine Sys2Proof.Safety

/-- The three outputs of a next state, none of a stop. -/
def outputs (o : Host.Outcome State Fault Refusal) : Option (Word32 × Word32 × CmdWord) :=
  match o with
  | .next s => some (crcOut s, expOut s, statusOut s)
  | .fault _ => none
  | .refused _ => none

/-- The reset state with another `ACC`, `EXP` and `EXP_CNT`. -/
def at' (acc exp : Word32) (cnt : BitVec 3) : State := { State.reset with acc := acc, exp := exp, expCnt := cnt }

/-- The spec's "IEND-matched": IEND fed, its crc expected, checked (95 section 4). -/
def iendMatched : State := { at' 0x51BD9F7D#32 0xAE426082#32 4#3 with done := true, matched := true }

/-! ### Well-formedness: a word that R54 does not list is no reserved word -/

theorem test_wf_reserved : WellFormed (.reserved 0x5000#16) = true ∧ WellFormed (.reserved 0x0100#16) = true ∧
    WellFormed (.reserved 0x4001#16) = true := by decide

theorem test_wf_refuses_nop_word : WellFormed (.reserved 0x0000#16) = false := by decide

theorem test_wf_refuses_operand_words : WellFormed (.reserved 0x20FF#16) = false ∧ WellFormed (.reserved 0x3000#16) = false := by
  decide

theorem test_wf_refuses_init_check_words : WellFormed (.reserved 0x1000#16) = false ∧ WellFormed (.reserved 0x4000#16) = false := by
  decide

/-! ### Decoding, the words written out bit by bit from R52 -/

theorem test_decode_nop : decode 0b0000000000000000#16 = .nop := by decide

theorem test_decode_init : decode 0b0001000000000000#16 = .init := by decide

theorem test_decode_feed : decode 0b0010000001001001#16 = .feed 0x49#8 := by decide

theorem test_decode_expect : decode 0b0011000010101110#16 = .expect 0xAE#8 := by decide

theorem test_decode_check : decode 0b0100000000000000#16 = .check := by decide

theorem test_decode_reserved : decode 0b0101000000000000#16 = .reserved 0x5000#16 ∧
    decode 0b0010000100000000#16 = .reserved 0x2100#16 ∧ decode 0b0001000000000001#16 = .reserved 0x1001#16 := by decide

theorem test_table_word : decodeTableWord 16 0x20FF = some (.feed 0xFF#8) ∧ decodeTableWord 24 0 = none := by decide

/-! ### The checksum (V10, V12, V16, V17) -/

theorem test_crc_check_value :
    crc [0x31#8, 0x32#8, 0x33#8, 0x34#8, 0x35#8, 0x36#8, 0x37#8, 0x38#8, 0x39#8] = 0xCBF43926#32 := by decide +kernel

theorem test_acc_iend : accOf [0x49#8, 0x45#8, 0x4E#8, 0x44#8] = 0x51BD9F7D#32 := by decide +kernel

theorem test_crc_step_linear_example : crcStep 0x12345678#32 0x9A#8 = 0x4E16B702#32 ∧
    crcStep 0x12345678#32 0x00#8 = 0x5ECCCD58#32 ∧ crcTable 0x9A#8 = 0x10DA7A5A#32 := by decide +kernel

/-- V12's ACC by the table form, with V17's entry 0xB6 (V12's own text misprints that entry; log entry 18). -/
theorem test_table_step : tableStep 0xFFFFFFFF#32 0x49#8 = 0x22FDE946#32 ∧ crcTable 0xB6#8 = 0x220216B9#32 := by
  decide +kernel

theorem test_poly_r : reflect Config.poly = Config.polyR := by decide +kernel

/-! ### One command each (V30 to V64) -/

/-- V31: NOP keeps a verdict. -/
theorem test_nop_keeps_verdict : outputs (exec .nop iendMatched) = some (0xAE426082#32, 0xAE426082#32, 0x0403#16) := by
  decide +kernel

/-- V34: INIT does not clear ILL. -/
theorem test_init_keeps_ill : outputs (exec .init { iendMatched with ill := true }) = some (0#32, 0#32, 0x0020#16) := by
  decide +kernel

/-- V35: INIT clears OVR, EXP and EXP_CNT. -/
theorem test_init_clears_ovr : outputs (exec .init { at' 0xFFFFFFFF#32 1#32 4#3 with ovr := true }) = some (0#32, 0#32, 0#16) := by
  decide +kernel

/-- V39: FEED 'I' from reset. -/
theorem test_feed_from_reset : outputs (exec (.feed 0x49#8) State.reset) = some (0xDD0216B9#32, 0#32, 0#16) := by decide +kernel

/-- V40: FEED after a verdict clears it and extends the stream. -/
theorem test_feed_clears_verdict :
    outputs (exec (.feed 0x00#8) iendMatched) = some (0xD11A4FE1#32, 0xAE426082#32, 0x0400#16) := by decide +kernel

/-- V46: EXPECT of the fourth byte clears a TRUNC verdict. -/
theorem test_expect_fourth :
    outputs (exec (.expect 0x82#8) { at' 0x51BD9F7D#32 0x00AE4260#32 3#3 with done := true, trunc := true }) =
      some (0xAE426082#32, 0xAE426082#32, 0x0400#16) := by decide +kernel

/-- V45: a fifth EXPECT overruns and keeps EXP. -/
theorem test_expect_overrun :
    outputs (exec (.expect 0x55#8) (at' 0xFFFFFFFF#32 0xAE426082#32 4#3)) = some (0#32, 0xAE426082#32, 0x0410#16) := by
  decide +kernel

/-- V48 and V49: CHECK matches, and catches the last bit. -/
theorem test_check_compares :
    outputs (exec .check (at' 0x51BD9F7D#32 0xAE426082#32 4#3)) = some (0xAE426082#32, 0xAE426082#32, 0x0403#16) ∧
    outputs (exec .check (at' 0x51BD9F7D#32 0xAE426083#32 4#3)) = some (0xAE426082#32, 0xAE426083#32, 0x0405#16) := by
  decide +kernel

/-- V50 and V52: CHECK of a short field, and after an overrun. -/
theorem test_check_short_and_void :
    outputs (exec .check (at' 0x51BD9F7D#32 0x00AE4260#32 3#3)) = some (0xAE426082#32, 0x00AE4260#32, 0x0309#16) ∧
    outputs (exec .check { at' 0x51BD9F7D#32 0xAE426082#32 4#3 with ovr := true }) =
      some (0xAE426082#32, 0xAE426082#32, 0x0411#16) := by decide +kernel

/-- V64: a reserved word keeps a verdict. -/
theorem test_reserved_keeps_verdict :
    outputs (exec (decode 0x5000#16) iendMatched) = some (0xAE426082#32, 0xAE426082#32, 0x0423#16) := by decide +kernel

/-- V60: INIT with a nonzero B does not initialise. -/
theorem test_reserved_init : outputs (exec (decode 0x1001#16) (at' 0x51BD9F7D#32 0#32 0#3)) = some (0xAE426082#32, 0#32, 0x0020#16) := by
  decide +kernel

/-! ### Steps, ports and the host -/

/-- V65: a reset clears ILL. -/
theorem test_step_reset : outputs (step { iendMatched with ill := true, input := [.reset] }) = some (0#32, 0#32, 0#16) := by
  decide +kernel

/-- R131: at one edge reset wins over a command. -/
theorem test_edge_reset_wins :
    outputs (clockEdge { rst := true, cmdValid := true, driver := .host, cmd := 0x5000#16 } iendMatched) =
      some (0#32, 0#32, 0#16) := by decide +kernel

theorem test_placed_word_runs : outputs (step (State.reset.withFetchWord 16 0x20FF)) = some (0xFF000000#32, 0#32, 0#16) := by
  decide +kernel

/-- P1: the IEND chunk serialises as the spec prints it. -/
theorem test_serialize_iend :
    serialize { length := 0#32, tag := [0x49#8, 0x45#8, 0x4E#8, 0x44#8], data := [], crc := 0xAE426082#32 } =
      [0#8, 0#8, 0#8, 0#8, 0x49#8, 0x45#8, 0x4E#8, 0x44#8, 0xAE#8, 0x42#8, 0x60#8, 0x82#8] := by decide

/-- P3's verdict is read as a mismatch, P7's as a host fault (41 R97). -/
theorem test_read_verdict : readVerdict 0x0405#16 = .checksumMismatch ∧ readVerdict 0x0229#16 = .hostFault ∧
    readVerdict 0x0411#16 = .void := by decide

/-- R56's examples, and P2's VERIFY as text. -/
theorem test_assemble_examples :
    assembleLine "FEED 0x49".toList = some [0x2049#16] ∧ assembleLine "  EXPECT 0xAE ; a comment".toList = some [0x30AE#16] ∧
    assembleLine "FEED 'I'".toList = some [0x2049#16] ∧ assembleLine ".word 0x5000".toList = some [0x5000#16] ∧
    assembleLine "check".toList = none ∧ assembleLine "FEED 256".toList = none := by decide +kernel

theorem test_assemble_verify :
    assembleLine "VERIFY \"IEND\", 0xAE426082".toList =
      some [0x1000#16, 0x2049#16, 0x2045#16, 0x204E#16, 0x2044#16, 0x30AE#16, 0x3042#16, 0x3060#16, 0x3082#16, 0x4000#16] ∧
    assembleLine "FEEDS [0x49, 69] ++ \"ND\"".toList = some [0x2049#16, 0x2045#16, 0x204E#16, 0x2044#16] := by decide +kernel

/-- R56: a decimal operand at both ends of a byte, and a comment right after the operand. -/
theorem test_assemble_decimal_and_comment :
    renderDecimal 0x00#8 = "0".toList ∧ renderDecimal 0xFF#8 = "255".toList ∧
    assembleLine "FEED 255;all ones".toList = some [0x20FF#16] := by decide +kernel

/-- Log entry 12: a line without a command issues nothing. -/
theorem test_assemble_no_command : assembleLine [] = some [] ∧ assembleLine "  ; only a comment".toList = some [] := by
  decide +kernel

/-! ### Witnesses for the hypotheses of the statements -/

/-- ResetWinsOverACommand: an edge with rst, a stream that begins with a reset, and ILL kept by a command. -/
theorem test_wit_reset_wins :
    (∃ e : Edge, e.rst = true ∧ e.cmdValid = true) ∧ (∃ s : State, s.input = [.reset]) ∧
    (∃ s t : State, s.ill = true ∧ exec (decode 0x1000#16) s = .next t ∧ t.ill = true) :=
  ⟨⟨⟨true, true, .host, 0x0000#16⟩, rfl, rfl⟩, ⟨{ iendMatched with input := [.reset] }, rfl⟩,
    ⟨{ iendMatched with ill := true }, _, rfl, rfl, rfl⟩⟩

/-- NoStateIsHidden: two states with the same outputs and different streams. -/
theorem test_wit_no_state_hidden : ∃ s t : State, crcOut s = crcOut t ∧ expOut s = expOut t ∧ statusOut s = statusOut t ∧ s ≠ t :=
  ⟨iendMatched, { iendMatched with input := [.reset] }, rfl, rfl, rfl, by decide⟩

/-- StepRunsTheNextInput and OnlyASecondHostIsRefused: each kind of next input, and a stream of the one host. -/
theorem test_wit_step_inputs :
    (∃ s : State, s.input = [.command .host 0x20FF#16]) ∧ (∃ s : State, s.input = [.reset, .command .host 0x1000#16]) ∧
    State.reset.input = [] ∧ (∃ s : State, s.input = [.command .other 0x1000#16]) ∧
    (∃ s : State, s.input ≠ [] ∧ ∀ i ∈ s.input, fromHost i = true) :=
  ⟨⟨presentWord 0x20FF#16 State.reset, rfl⟩, ⟨{ State.reset with input := [.reset, .command .host 0x1000#16] }, rfl⟩, rfl,
    ⟨{ State.reset with input := [.command .other 0x1000#16] }, rfl⟩, ⟨presentWord 0x20FF#16 State.reset, by decide, by decide⟩⟩

/-- AcceptingAnEdge: an accepting edge, an idle edge, and an edge that presents an input. -/
theorem test_wit_edges :
    (∃ e : Edge, e.rst = false ∧ e.cmdValid = true ∧ e.driver = .host ∧
      sampleEdge e State.reset = some (.command .host 0x4000#16)) ∧
    (∃ e : Edge, e.rst = false ∧ e.cmdValid = false) :=
  ⟨⟨⟨false, true, .host, 0x4000#16⟩, rfl, rfl, rfl, rfl⟩, ⟨⟨false, false, .host, 0x4000#16⟩, rfl, rfl⟩⟩

/-- PlacedWordRunsNext. -/
theorem test_wit_placed_word : decodeTableWord 16 0x1000 = some .init := by decide

/-- OpcodeMap, ReservedWords, DecodeOfEncode, ReservedWordSetsIll: the first and the last reserved opcode, and
well-formed terms of both kinds. -/
theorem test_wit_words :
    (0x5000#16 : CmdWord).extractLsb' 12 4 ≥ 0x5#4 ∧ (0xFFFF#16 : CmdWord).extractLsb' 12 4 ≥ 0x5#4 ∧
    isReserved 0x4FFF#16 = true ∧ isReserved 0x5000#16 = true ∧ WellFormed (.expect 0xFF#8) = true := by decide

/-- AssembledText's last ASCII character, and a text of PseudoInstructionsAsText. -/
theorem test_wit_assembly :
    (Char.ofNat 127).toNat < 128 ∧ (∀ c ∈ ['I', 'D', ';', ','], c.toNat < 128 ∧ c.toNat ≠ 34) := by
  refine ⟨by decide, fun c hc => ?_⟩
  fin_cases hc <;> decide

/-- InitStartsAChecksum's and FeedAbsorbsAByte's states. -/
theorem test_wit_init_feed : (∃ s : State, s.ill = true ∧ s.expCnt = 4#3) ∧ State.reset.acc = 0xFFFFFFFF#32 :=
  ⟨⟨{ iendMatched with ill := true }, rfl, rfl⟩, rfl⟩

/-- ExpectAbsorbsACrcByte, ExpectBeforeTheFirstReset and CommandFrames: the counts where the clauses meet, 3, 4, 5 and 7. -/
theorem test_wit_expect :
    (∃ s : State, s.expCnt.toNat < 4 ∧ s.expCnt = 3#3) ∧ (∃ s : State, s.expCnt = 4#3) ∧
    (∃ s : State, 4 < s.expCnt.toNat ∧ s.expCnt.toNat < 7) ∧ (∃ s : State, 4 < s.expCnt.toNat ∧ s.expCnt = 7#3) ∧
    State.reset.ill = false :=
  ⟨⟨at' 0#32 0#32 3#3, by decide, rfl⟩, ⟨iendMatched, rfl⟩, ⟨at' 0#32 0#32 5#3, by decide, by decide⟩,
    ⟨at' 0#32 0#32 7#3, by decide, rfl⟩, rfl⟩

/-- CheckComparesTheCrcs: V53, the empty stream against a field of zeros. -/
theorem test_wit_check : ∃ s t : State, exec .check s = .next t ∧ s.acc = 0xFFFFFFFF#32 ∧ t.matched = true ∧ s.ill = false :=
  ⟨at' 0xFFFFFFFF#32 0#32 4#3, _, rfl, rfl, by decide, rfl⟩

/-- The statements about any next state of exec, of step and of a reset (CommandFrames, OnlyInitFeedAndResetWriteAcc,
ExpIsTheBigEndianField, FlagWriters, WhichCommandsAreIdempotent, AtMostOneExceptionPerCommand): next states that differ. -/
theorem test_wit_next_states :
    (∃ s t : State, exec .init s = .next t ∧ t.acc ≠ s.acc ∧ t.exp ≠ s.exp) ∧
    (∃ s t : State, step s = .next t ∧ t.acc ≠ s.acc) ∧ (∃ s t : State, react .reset s = .next t ∧ t ≠ s) ∧
    (∃ (b : Byte) (s t : State), exec (.expect b) s = .next t ∧ t.exp ≠ s.exp ∧ s.expCnt = 0#3) ∧
    (∃ s : State, s.expCnt.toNat < 3 ∧ s.expCnt = 2#3) :=
  ⟨⟨iendMatched, _, rfl, by decide, by decide⟩, ⟨presentWord 0x1000#16 iendMatched, _, rfl, by decide⟩,
    ⟨iendMatched, _, rfl, by decide⟩, ⟨0xAE#8, State.reset, _, rfl, by decide, rfl⟩, ⟨at' 0#32 0#32 2#3, by decide, rfl⟩⟩

/-- CheckVerdictPriority, HostReadsTheVerdict and StepKeepsFlagInvariants: states with R26's invariants in each case of R113. -/
theorem test_wit_flags_inv :
    (FlagsInv (at' 0#32 0#32 3#3) ∧ (at' 0#32 0#32 3#3).expCnt.toNat < 4) ∧
    (FlagsInv { iendMatched with ovr := true, done := false, matched := false } ∧ ¬ iendMatched.expCnt.toNat < 4) ∧
    (FlagsInv iendMatched ∧ iendMatched.ovr = false) ∧ (∃ t, step (presentWord 0x4000#16 iendMatched) = .next t) := by
  refine ⟨⟨⟨?_, ?_, ?_, ?_, ?_, ?_⟩, ?_⟩, ⟨⟨?_, ?_, ?_, ?_, ?_, ?_⟩, ?_⟩, ⟨⟨?_, ?_, ?_, ?_, ?_, ?_⟩, rfl⟩, ⟨_, rfl⟩⟩ <;> decide

/-- StepKeepsTheVerdictFresh and StepKeepsExpFits: a state with a verdict. -/
theorem test_wit_verdict_inv : VerdictInv iendMatched ∧ ExpFits iendMatched := by
  refine ⟨⟨?_, ?_, ?_, ?_, ?_⟩, ?_⟩
  · decide
  · decide
  · decide +kernel
  · decide +kernel
  · decide
  · unfold ExpFits; decide

/-- IllIsSticky's launched state, and RunningCrc's and OnlyIllSurvivesInit's premises. -/
theorem test_wit_runs :
    Launched (applyReset iendMatched) ∧ NoInit [0x2049#16, 0x0000#16, 0x30AE#16, 0x4000#16, 0x5000#16] ∧
    iendMatched.ill = State.reset.ill ∧ iendMatched.input = State.reset.input ∧
    (∀ i ∈ [Input.reset, Input.command .host 0x5000#16], fromHost i = true) :=
  ⟨⟨iendMatched, rfl⟩, by intro w hw; fin_cases hw <;> decide, rfl, rfl, by decide⟩

/-- VerdictForAnyDutifulOrder: V56's order, EXPECTs before FEEDs, with a NOP between. -/
theorem test_wit_duties : KeepsDuties [0x30AE#16, 0x3042#16, 0x3060#16, 0x3082#16, 0x0000#16, 0x2049#16] := by
  refine ⟨?_, ?_, ?_⟩
  · intro w hw; fin_cases hw <;> decide
  · intro w hw; fin_cases hw <;> decide
  · decide

/-- EncodedChunkLayout, ChunkRoundTrip, CommandCounts, FileOfChunksParses: the IEND chunk, with its crc and with a wrong one. -/
theorem test_wit_chunk :
    [0x49#8, 0x45#8, 0x4E#8, 0x44#8].length = 4 ∧ [0x49#8, 0x45#8, 0x4E#8, 0x44#8].all isTagByte = true ∧
    ([] : List Byte).length < 2 ^ 32 ∧ State.reset.ill = false ∧
    chunkValid { length := 0#32, tag := [0x49#8, 0x45#8, 0x4E#8, 0x44#8], data := [], crc := 0xAE426082#32 } = true ∧
    (0xAE426083#32 : Word32) ≠ crc ([0x49#8, 0x45#8, 0x4E#8, 0x44#8] ++ []) := by decide +kernel

/-- HostFramingOrder: 7 bytes, a bad tag, one byte too few, exactly a whole chunk. -/
theorem test_wit_framing :
    ([0#8, 0#8, 0#8, 0#8, 0x49#8, 0x45#8, 0x4E#8] : List Byte).length < 8 ∧
    ([0x5B#8, 0x45#8, 0x4E#8, 0x44#8] : List Byte).all isTagByte = false ∧
    ([0x41#8, 0x5A#8, 0x61#8, 0x7A#8] : List Byte).all isTagByte = true ∧
    ([0#8, 0#8, 0#8, 0#8, 0x49#8, 0x45#8, 0x4E#8, 0x44#8, 0xAE#8, 0x42#8, 0x60#8] : List Byte).length < 8 + 0 + 4 ∧
    8 + 0 + 4 ≤ ([0#8, 0#8, 0#8, 0#8, 0x49#8, 0x45#8, 0x4E#8, 0x44#8, 0xAE#8, 0x42#8, 0x60#8, 0x82#8] : List Byte).length := by
  decide

/-- ReflectReversesBits, FlippedCrcFieldBitIsCaught, FlippedStreamBitIsCaught: the last bit of each width. -/
theorem test_wit_bits : (31 : Nat) < 32 ∧ (7 : Nat) < 8 ∧ (reflect 0x01#8).getLsbD (8 - 1 - 0) = true := by decide

end Sys2Proof.Tests
end

section
/-!
PROOFS, 00_scope.md. The reflection: what it does to each bit, for every width.
-/
namespace Sys2Proof.Machine

/-- Bit `j` of the reflection is bit `n-1-j` of the value, and is 0 beyond the width. -/
@[simp] theorem getLsbD_reflect {n : Nat} (v : BitVec n) (j : Nat) :
    (reflect v).getLsbD j = (decide (j < n) && v.getLsbD (n - 1 - j)) := by
  rw [reflect, BitVec.getLsbD_reverse, BitVec.getMsbD]

/-- 00_scope.md R9's own wording: bit `i` goes to bit `n-1-i`. -/
theorem getLsbD_reflect_mirror {n : Nat} (v : BitVec n) {i : Nat} (hi : i < n) :
    (reflect v).getLsbD (n - 1 - i) = v.getLsbD i := by
  have mirror : n - 1 - (n - 1 - i) = i := by omega
  have inside : n - 1 - i < n := by omega
  rw [getLsbD_reflect, mirror, decide_eq_true inside, Bool.true_and]

/-- The all-ones value is its own reflection at every width (10_state.md R22 needs it at 32). -/
theorem reflect_allOnes (n : Nat) : reflect (BitVec.allOnes n) = BitVec.allOnes n := by
  apply BitVec.eq_of_getLsbD_eq
  intro j hj
  have inside : n - 1 - j < n := by omega
  rw [getLsbD_reflect, BitVec.getLsbD_allOnes, BitVec.getLsbD_allOnes, decide_eq_true hj, decide_eq_true inside,
    Bool.and_self]

/-- `POLY_R` is the reflection of `POLY` (00_scope.md R5, R9). -/
theorem reflect_poly : reflect Config.poly = Config.polyR := by decide +kernel

/-- Settles O40: bit by bit for every width, INIT's fixed point as the all-ones value, and R9's two examples evaluated. -/
theorem reflectReversesBits : Obligations.ReflectReversesBits := by
  unfold Obligations.ReflectReversesBits
  refine ⟨fun n v i hi => getLsbD_reflect_mirror v hi, ?_, reflect_poly, reflect_allOnes 32, reflect_poly⟩
  decide

end Sys2Proof.Machine
end

section
/-!
PROOFS, 10_state.md: the rules the proofs below cite. Each command's next state, what it does to `ACC`, `EXP` and `EXP_CNT`;
the shift of a byte into `EXP`; the word of a decoded command; the bits of `status_out`.
-/
namespace Sys2Proof

/-- The word of the decoded command is the word itself (30_encoding.md R52, R55). -/
theorem encode_decode (w : CmdWord) : encode (decode w) = w := by
  have hb := bField_toNat w
  apply BitVec.eq_of_toNat_eq
  rcases decode_cases w with ⟨hw, hd⟩ | ⟨hw, hd⟩ | ⟨hw, hd⟩ | ⟨hw, hd⟩ | ⟨hw, hd⟩ | ⟨-, hd⟩ <;> rw [hd]
  · exact hw.symm
  · exact hw.symm
  · rw [encode, packWord_toNat, hb]
    simp
    omega
  · rw [encode, packWord_toNat, hb]
    simp
    omega
  · exact hw.symm
  · rfl

/-- Only the word 0x1000 is INIT. -/
theorem word_of_decode_init {w : CmdWord} (h : decode w = .init) : w = 0x1000#16 := by
  rw [← encode_decode w, h]
  rfl

/-- Only a word 0x20bb is a FEED. -/
theorem word_of_decode_feed {w : CmdWord} {b : Byte} (h : decode w = .feed b) : w = 0x20#8 ++ b := by
  rw [← encode_decode w, h]
  rfl

namespace Machine

/-- EXPECT's next state: the field was full and is kept, or the byte is shifted in and counted (40_crc_commands.md R73). -/
theorem after_expect_cases (b : Byte) (s : State) :
    (s.expCnt = 4#3 ∧ after (.expect b) s = clearVerdict (raise .expectOverrun s)) ∨
      (s.expCnt ≠ 4#3 ∧ after (.expect b) s = clearVerdict (appendExpected b s)) := by
  by_cases h : s.expCnt = 4#3
  · exact .inl ⟨h, after_expect_full b h⟩
  · exact .inr ⟨h, after_expect_short b h⟩

/-- What a command does to `ACC` (10_state.md R21). -/
theorem after_acc (i : Instr) (s : State) :
    (after i s).acc = match i with
      | .init => 0xFFFFFFFF#32
      | .feed b => crcStep s.acc b
      | _ => s.acc := by
  cases i with
  | expect b => rcases after_expect_cases b s with ⟨-, h⟩ | ⟨-, h⟩ <;> simp [h]
  | check => simp [after_check_eq]
  | _ => rfl

/-- What a command does to `EXP` and `EXP_CNT` (10_state.md R23, R24): INIT clears both, EXPECT into a field that is not full
shifts and counts a byte, and everything else keeps both. -/
theorem after_exp_cases (i : Instr) (s : State) :
    ((after i s).exp = s.exp ∧ (after i s).expCnt = s.expCnt) ∨
      (i = .init ∧ (after i s).exp = 0x00000000#32 ∧ (after i s).expCnt = 0#3) ∨
      ∃ b, i = .expect b ∧ s.expCnt ≠ 4#3 ∧ (after i s).exp = shiftInByte s.exp b ∧ (after i s).expCnt = nextCount b s := by
  cases i with
  | init => exact .inr (.inl ⟨rfl, rfl, rfl⟩)
  | expect b =>
    rcases after_expect_cases b s with ⟨-, h⟩ | ⟨hshort, h⟩
    · exact .inl (by simp [h])
    · exact .inr (.inr ⟨b, rfl, hshort, by simp [h], by simp [h]⟩)
  | check => exact .inl (by simp [after_check_eq])
  | _ => exact .inl ⟨rfl, rfl⟩

/-- A count below 4 is neither 4 nor any count above it. -/
theorem expCnt_ne_of_lt {s : State} {k : BitVec 3} (hlt : s.expCnt.toNat < 4) (hk : 4 ≤ k.toNat) : s.expCnt ≠ k := by
  rintro rfl
  omega

/-- A count of at most 4 that is not 4 leaves room for a byte. -/
theorem expCnt_lt_of_ne {s : State} (hle : s.expCnt.toNat ≤ 4) (hne : s.expCnt ≠ 4#3) : s.expCnt.toNat < 4 :=
  lt_of_le_of_ne hle fun h => hne (BitVec.eq_of_toNat_eq h)

/-- No command takes a count of at most 4 beyond 4 (10_state.md R24). -/
theorem after_expCnt_le (i : Instr) {s : State} (hle : s.expCnt.toNat ≤ 4) : (after i s).expCnt.toNat ≤ 4 := by
  rcases after_exp_cases i s with ⟨-, h⟩ | ⟨-, -, h⟩ | ⟨b, -, hshort, -, h⟩
  · rwa [h]
  · simp [h]
  · have hlt := expCnt_lt_of_ne hle hshort
    rw [h, nextCount_toNat b hlt]
    exact hlt

/-- A byte put behind a value, as arithmetic. -/
theorem toNat_append_byte {n : Nat} (v : BitVec n) (b : Byte) : (v ++ b).toNat = v.toNat * 256 + b.toNat := by
  rw [BitVec.toNat_append, ← Nat.shiftLeft_add_eq_or_of_lt b.isLt, Nat.shiftLeft_eq]

/-- The shift of a byte into `EXP` as arithmetic: the byte in `EXP[31:24]` drops out. -/
theorem shiftInByte_toNat (e : Word32) (b : Byte) :
    (shiftInByte e b).toNat = e.toNat % 2 ^ 24 * 256 + b.toNat := by
  rw [shiftInByte, toNat_append_byte, BitVec.extractLsb'_toNat, Nat.shiftRight_zero]

theorem extractLsb'_shiftInByte_low (e : Word32) (b : Byte) : (shiftInByte e b).extractLsb' 0 8 = b := by
  apply BitVec.eq_of_toNat_eq
  have hb := b.isLt
  rw [BitVec.extractLsb'_toNat, shiftInByte_toNat, Nat.shiftRight_zero]
  omega

theorem extractLsb'_shiftInByte_high (e : Word32) (b : Byte) :
    (shiftInByte e b).extractLsb' 8 24 = e.extractLsb' 0 24 := by
  apply BitVec.eq_of_toNat_eq
  have hb := b.isLt
  rw [BitVec.extractLsb'_toNat, BitVec.extractLsb'_toNat, shiftInByte_toNat, Nat.shiftRight_eq_div_pow, Nat.shiftRight_zero]
  omega

/-- Four bytes in stream order leave nothing of the old value (20_memory.md R43). -/
theorem foldl_shiftInByte_four (e : Word32) (c0 c1 c2 c3 : Byte) :
    [c0, c1, c2, c3].foldl shiftInByte e = c0 ++ c1 ++ c2 ++ c3 := by
  apply BitVec.eq_of_toNat_eq
  have h0 := c0.isLt
  have h1 := c1.isLt
  have h2 := c2.isLt
  have h3 := c3.isLt
  simp only [List.foldl_cons, List.foldl_nil, shiftInByte_toNat, toNat_append_byte]
  omega

/-- The first EXPECT of several, into a field that is not full. -/
theorem afterAll_expects_cons (b : Byte) (m : List Byte) {s : State} (hshort : s.expCnt ≠ 4#3) :
    afterAll (expects (b :: m)) s = afterAll (expects m) (clearVerdict (appendExpected b s)) := by
  rw [expects, List.map_cons, afterAll_cons, decode_expect_word, after_expect_short b hshort]
  rfl

/-- EXPECTs that fit the field, from a state without a verdict, change `EXP` and `EXP_CNT` alone. -/
theorem afterAll_expects_clearVerdict (m : List Byte) {s : State} (hfit : s.expCnt.toNat + m.length ≤ 4) :
    afterAll (expects m) (clearVerdict s) =
      clearVerdict { s with exp := m.foldl shiftInByte s.exp, expCnt := s.expCnt + BitVec.ofNat 3 m.length } := by
  induction m generalizing s with
  | nil => simp [expects]
  | cons b m ih =>
    rw [List.length_cons] at hfit
    have hlt : (clearVerdict s).expCnt.toNat < 4 := by
      rw [clearVerdict_expCnt]
      omega
    have hne4 := expCnt_ne_of_lt (k := 4#3) hlt (by decide)
    have hne7 := expCnt_ne_of_lt (k := 7#3) hlt (by decide)
    have hfit' : (appendExpected b (clearVerdict s)).expCnt.toNat + m.length ≤ 4 := by
      rw [appendExpected_expCnt, nextCount_toNat b hlt, clearVerdict_expCnt]
      omega
    have hcount : s.expCnt + 1#3 + BitVec.ofNat 3 m.length = s.expCnt + BitVec.ofNat 3 (m.length + 1) := by
      rw [BitVec.add_assoc, BitVec.add_comm 1#3, ← BitVec.ofNat_add]
    rw [afterAll_expects_cons b m hne4, ih hfit', appendExpected_expCnt, nextCount_of_ne_seven b hne7, clearVerdict_expCnt,
      hcount]
    rfl

/-- Four EXPECTs into an empty field leave the field's big-endian value and clear the verdict (10_state.md R23). -/
theorem afterAll_four_expects {s : State} (hempty : s.expCnt = 0#3) (c0 c1 c2 c3 : Byte) :
    afterAll (expects [c0, c1, c2, c3]) s = clearVerdict { s with exp := c0 ++ c1 ++ c2 ++ c3, expCnt := 4#3 } := by
  have hcount : nextCount c0 s = 1#3 := by simp [nextCount_of_ne_seven, hempty]
  rw [afterAll_expects_cons c0 _ (by simp [hempty]), afterAll_expects_clearVerdict _ (by simp [hcount]),
    ← foldl_shiftInByte_four s.exp c0 c1 c2 c3, appendExpected_expCnt, hcount]
  rfl

/-- A flag put behind a value is bit 0 of the two. -/
theorem getElem_append_bit_zero {n : Nat} (v : BitVec n) (b : Bool) : (v ++ BitVec.ofBool b)[0] = b := by
  simp [BitVec.getElem_append]

/-- A flag put behind a value moves every other bit up by one. -/
theorem getElem_append_bit_succ {n : Nat} (v : BitVec n) (b : Bool) {k : Nat} (h : k + 1 < n + 1) :
    (v ++ BitVec.ofBool b)[k + 1] = v[k] := by
  simp [BitVec.getElem_append]

theorem extractLsb'_append_bit_succ {n : Nat} (v : BitVec n) (b : Bool) (k len : Nat) :
    (v ++ BitVec.ofBool b).extractLsb' (k + 1) len = v.extractLsb' k len := by
  apply BitVec.eq_of_getLsbD_eq
  intro j hj
  simp [BitVec.getLsbD_append, show k + 1 + j - 1 = k + j by omega]

@[simp] theorem statusOut_done (s : State) : (statusOut s)[0] = s.done := by
  simp only [statusOut, getElem_append_bit_zero]

@[simp] theorem statusOut_matched (s : State) : (statusOut s)[1] = s.matched := by
  simp only [statusOut, getElem_append_bit_zero, getElem_append_bit_succ]

@[simp] theorem statusOut_ckerr (s : State) : (statusOut s)[2] = s.ckerr := by
  simp only [statusOut, getElem_append_bit_zero, getElem_append_bit_succ]

@[simp] theorem statusOut_trunc (s : State) : (statusOut s)[3] = s.trunc := by
  simp only [statusOut, getElem_append_bit_zero, getElem_append_bit_succ]

@[simp] theorem statusOut_ovr (s : State) : (statusOut s)[4] = s.ovr := by
  simp only [statusOut, getElem_append_bit_zero, getElem_append_bit_succ]

@[simp] theorem statusOut_ill (s : State) : (statusOut s)[5] = s.ill := by
  simp only [statusOut, getElem_append_bit_zero, getElem_append_bit_succ]

@[simp] theorem statusOut_zero_low (s : State) : (statusOut s).extractLsb' 6 2 = 0#2 := by
  have field : ∀ c : BitVec 3, (0#5 ++ c ++ 0#2).extractLsb' 0 2 = 0#2 := by decide
  simp only [statusOut, extractLsb'_append_bit_succ, field]

@[simp] theorem statusOut_expCnt (s : State) : (statusOut s).extractLsb' 8 3 = s.expCnt := by
  have field : ∀ c : BitVec 3, (0#5 ++ c ++ 0#2).extractLsb' 2 3 = c := by decide
  simp only [statusOut, extractLsb'_append_bit_succ, field]

@[simp] theorem statusOut_zero_high (s : State) : (statusOut s).extractLsb' 11 5 = 0#5 := by
  have field : ∀ c : BitVec 3, (0#5 ++ c ++ 0#2).extractLsb' 5 5 = 0#5 := by decide
  simp only [statusOut, extractLsb'_append_bit_succ, field]

/-- The final XOR undoes itself: `ACC` is read back from `crc_out` (10_state.md R31). -/
theorem acc_eq_crcOut_xor (s : State) : s.acc = crcOut s ^^^ 0xFFFFFFFF#32 := (crcOut_eq_iff s _).mp rfl

end Machine
end Sys2Proof
end

section
/-!
PROOFS, 10_state.md R23, R24, R26: the invariants that every step keeps. A step invariant is one that every reset makes, that
every command keeps, and that does not depend on what the host presents later.
-/
namespace Sys2Proof.Machine

open Sys2Proof.Safety

/-- The induction over the kinds of a step (10_state.md R30), once for every invariant: idle, a reset, or a command. -/
theorem step_keeps {P : State → Prop} (hreset : ∀ s, P (applyReset s)) (hinput : ∀ s l, P s → P { s with input := l })
    (hcommand : ∀ i s, P s → P (after i s)) {s t : State} (hs : P s) (h : step s = .next t) : P t := by
  rcases step_cases h with ⟨-, rfl⟩ | ⟨i, rest, -, ⟨-, rfl⟩ | ⟨w, -, rfl⟩⟩
  · exact hs
  · exact hreset _
  · exact hcommand _ _ (hinput _ _ hs)

/-- A cleared verdict meets (a) and (b) of R26, so (c) and (d) are all that is left to ask. -/
theorem flagsInv_clearVerdict {s : State} (hovr : s.ovr = true → s.expCnt = 4#3) (hle : s.expCnt.toNat ≤ 4) :
    FlagsInv (clearVerdict s) where
  not_matched_ckerr := by simp
  not_matched_trunc := by simp
  not_ckerr_trunc := by simp
  verdict_done := by simp
  ovr_full := hovr
  count_le := hle

theorem flagsInv_startChecksum (s : State) : FlagsInv (startChecksum s) :=
  flagsInv_clearVerdict (s := { s with acc := Config.crcInit, exp := 0x00000000#32, expCnt := 0#3, ovr := false })
    (by simp) (by simp)

/-- R26 says nothing of ILL and of the stream, and a reset is INIT but for them. -/
theorem flagsInv_applyReset (s : State) : FlagsInv (applyReset s) := by
  obtain ⟨hmc, hmt, hct, hdone, hovr, hle⟩ := flagsInv_startChecksum s
  exact ⟨hmc, hmt, hct, hdone, hovr, hle⟩

/-- The three conditions of CHECK exclude one another: MATCH and CKERR compare a full field, TRUNC has a short one. -/
theorem flagsInv_after_check {s : State} (hovr : s.ovr = true → s.expCnt = 4#3) (hle : s.expCnt.toNat ≤ 4) :
    FlagsInv (after .check s) := by
  have not_full (ht : truncCond s = true) : s.expCnt ≠ 4#3 := expCnt_ne_of_lt ((truncCond_iff s).mp ht) (by decide)
  rw [after_check_eq]
  refine ⟨?_, ?_, ?_, fun _ => rfl, hovr, hle⟩
  · rintro ⟨hm, hk⟩
    exact ((mismatchCond_iff s).mp hk).2 ((matchCond_iff s).mp hm).2
  · rintro ⟨hm, ht⟩
    exact not_full ht ((matchCond_iff s).mp hm).1.1
  · rintro ⟨hk, ht⟩
    exact not_full ht ((mismatchCond_iff s).mp hk).1.1

theorem flagsInv_after (i : Instr) {s : State} (h : FlagsInv s) : FlagsInv (after i s) := by
  have hle := after_expCnt_le i h.count_le
  cases i with
  | nop => exact h
  | init => exact flagsInv_startChecksum s
  | feed b => exact flagsInv_clearVerdict h.ovr_full hle
  | expect b =>
    rcases after_expect_cases b s with ⟨hfull, heq⟩ | ⟨hshort, heq⟩ <;> rw [heq] at hle ⊢
    · exact flagsInv_clearVerdict (fun _ => hfull) hle
    · exact flagsInv_clearVerdict (fun hovr => absurd (h.ovr_full hovr) hshort) hle
  | check => exact flagsInv_after_check h.ovr_full h.count_le
  | reserved w =>
    obtain ⟨hmc, hmt, hct, hdone, hovr, -⟩ := h
    exact ⟨hmc, hmt, hct, hdone, hovr, hle⟩

/-- The count a power-on state may hold and no later state does. -/
theorem not_flagsInv_of_expCnt_five {s : State} (h : s.expCnt = 5#3) : ¬ FlagsInv s := fun hinv =>
  absurd hinv.count_le (by simp [h])

/-- Settles O37: resets and commands keep the invariants, and a power-on count of 5 breaks (d). -/
theorem stepKeepsFlagInvariants : Obligations.StepKeepsFlagInvariants := by
  unfold Obligations.StepKeepsFlagInvariants
  refine ⟨flagsInv_applyReset, fun s t hs => ?_, 5#3, fun acc exp d m k t o i l => not_flagsInv_of_expCnt_five rfl⟩
  refine step_keeps flagsInv_applyReset (fun u l hu => ?_) (fun i u => flagsInv_after i) hs
  obtain ⟨hmc, hmt, hct, hdone, hovr, hle⟩ := hu
  exact ⟨hmc, hmt, hct, hdone, hovr, hle⟩

theorem expFits_applyReset (s : State) : ExpFits (applyReset s) := by
  simp [ExpFits]

/-- A byte more in the count is a factor of 256 more for the value. -/
theorem shiftInByte_lt {e : Word32} {n : Nat} (h : e.toNat < 256 ^ n) (b : Byte) :
    (shiftInByte e b).toNat < 256 ^ (n + 1) := by
  have hb := b.isLt
  rw [shiftInByte_toNat, pow_succ]
  omega

theorem expFits_after (i : Instr) {s : State} (h : ExpFits s) : ExpFits (after i s) := by
  obtain ⟨hle, hexp⟩ := h
  refine ⟨after_expCnt_le i hle, ?_⟩
  rcases after_exp_cases i s with ⟨he, hc⟩ | ⟨-, he, hc⟩ | ⟨b, -, hshort, he, hc⟩ <;> rw [he, hc]
  · exact hexp
  · decide
  · rw [nextCount_toNat b (expCnt_lt_of_ne hle hshort)]
    exact shiftInByte_lt hexp b

/-- Settles O39: EXPECT is the one command that puts a byte into `EXP`, and it counts it. -/
theorem stepKeepsExpFits : Obligations.StepKeepsExpFits := by
  unfold Obligations.StepKeepsExpFits
  exact fun s t => step_keeps expFits_applyReset (fun _ _ hu => hu) fun i _ => expFits_after i

theorem verdictInv_applyReset (s : State) : VerdictInv (applyReset s) := by
  constructor <;> simp

/-- Settles O3: the reset state is a state after a reset step, and ILL is 0 in it. -/
theorem resetStateIsSound : Obligations.ResetStateIsSound := by
  unfold Obligations.ResetStateIsSound
  exact ⟨flagsInv_applyReset State.reset, verdictInv_applyReset State.reset, expFits_applyReset State.reset, reset_ill⟩

end Sys2Proof.Machine
end

section
/-!
PROOFS, 10_state.md R21, R23, R25, R29 to R31: the outputs, the acceptance of an edge, and who writes `ACC`, `EXP` and the flags.
-/
namespace Sys2Proof.Machine

/-- Settles O5: each bit of the status word is the flag or count R29 names, and INIT's `ACC` is the final XOR's own value. -/
theorem outputPorts : Obligations.OutputPorts := by
  unfold Obligations.OutputPorts
  intro s
  refine ⟨rfl, rfl, statusOut_done s, statusOut_matched s, statusOut_ckerr s, statusOut_trunc s, statusOut_ovr s,
    statusOut_ill s, statusOut_zero_low s, statusOut_expCnt s, statusOut_zero_high s, after .init s, exec_eq_after .init s, ?_⟩
  rw [crcOut_eq_iff]
  rfl

/-- Settles O6: every element is read back from the output R29 puts it in. -/
theorem noStateIsHidden : Obligations.NoStateIsHidden := by
  unfold Obligations.NoStateIsHidden
  intro s t hcrc hexp hstatus
  have hacc : s.acc = crcOut t ^^^ 0xFFFFFFFF#32 := hcrc ▸ acc_eq_crcOut_xor s
  refine ⟨hacc, state_eq (hacc.trans (acc_eq_crcOut_xor t).symm) hexp ?_ ?_ ?_ ?_ ?_ ?_ ?_ rfl⟩
  · exact (statusOut_expCnt s).symm.trans (hstatus ▸ statusOut_expCnt t)
  · exact (statusOut_done s).symm.trans (hstatus ▸ statusOut_done t)
  · exact (statusOut_matched s).symm.trans (hstatus ▸ statusOut_matched t)
  · exact (statusOut_ckerr s).symm.trans (hstatus ▸ statusOut_ckerr t)
  · exact (statusOut_trunc s).symm.trans (hstatus ▸ statusOut_trunc t)
  · exact (statusOut_ovr s).symm.trans (hstatus ▸ statusOut_ovr t)
  · exact (statusOut_ill s).symm.trans (hstatus ▸ statusOut_ill t)

theorem sampleEdge_command {e : Edge} (hrst : e.rst = false) (hvalid : e.cmdValid = true) (s : State) :
    sampleEdge e s = some (.command e.driver e.cmd) := by
  simp [sampleEdge, cmdReady, hrst, hvalid]

theorem sampleEdge_idle {e : Edge} (hrst : e.rst = false) (hvalid : e.cmdValid = false) (s : State) :
    sampleEdge e s = none := by
  simp [sampleEdge, hrst, hvalid]

theorem clockEdge_of_some {e : Edge} {s : State} {i : Input} (h : sampleEdge e s = some i) : clockEdge e s = react i s := by
  simp [clockEdge, h]

theorem clockEdge_of_none {e : Edge} {s : State} (h : sampleEdge e s = none) : clockEdge e s = .next s := by
  simp [clockEdge, h]

/-- Settles O8: what the edge samples decides, and a step on that input in front of the stream does the same. -/
theorem acceptingAnEdge : Obligations.AcceptingAnEdge := by
  unfold Obligations.AcceptingAnEdge
  intro e s
  refine ⟨rfl, fun hrst hvalid hhost => ?_, fun hrst hvalid => ?_, fun i hi => ?_⟩
  · rw [clockEdge_of_some (sampleEdge_command hrst hvalid s), hhost]
    rfl
  · exact clockEdge_of_none (sampleEdge_idle hrst hvalid s)
  · rw [clockEdge_of_some hi, step_cons rfl]

/-- Settles O7: `step_cons` and `step_nil`, read for each kind of input. -/
theorem stepRunsTheNextInput : Obligations.StepRunsTheNextInput := by
  unfold Obligations.StepRunsTheNextInput
  exact ⟨fun _ _ _ h => step_cons h, fun _ _ h => step_cons h, fun _ h => step_nil h⟩

/-- A table row that decodes to a command has at most 16 bits, and the command is that of its word. -/
theorem decode_tableWord_of_decodeTableWord {nbits w : Nat} {i : Instr} (h : decodeTableWord nbits w = some i) :
    decode (tableWord nbits w) = i := by
  unfold decodeTableWord at h
  split at h
  · cases h
  · exact Option.some.inj h

/-- Settles O10: the placed word is the next one issued. -/
theorem placedWordRunsNext : Obligations.PlacedWordRunsNext := by
  unfold Obligations.PlacedWordRunsNext
  intro s nbits w i hi
  have hissue : step (s.withFetchWord nbits w) = .next (after (decode (tableWord nbits w)) s) := issue_eq _ s
  rw [hissue, decode_tableWord_of_decodeTableWord hi, exec_eq_after]

/-- A command that changes `ACC` is INIT or a FEED. -/
theorem eq_init_or_feed_of_after_acc_ne {i : Instr} {s : State} (h : (after i s).acc ≠ s.acc) :
    i = .init ∨ ∃ b, i = .feed b := by
  cases i with
  | init => exact .inl rfl
  | feed b => exact .inr ⟨b, rfl⟩
  | _ => exact absurd (after_acc _ s) h

/-- Settles O28: `after_acc` for the commands, and the words of INIT and FEED for a step. -/
theorem onlyInitFeedAndResetWriteAcc : Obligations.OnlyInitFeedAndResetWriteAcc := by
  unfold Obligations.OnlyInitFeedAndResetWriteAcc
  constructor
  · intro i s t h
    rw [exec_next_iff.mp h]
    cases i <;> exact after_acc _ s
  · intro s t h hne
    rcases step_cases h with ⟨-, rfl⟩ | ⟨i, rest, hin, ⟨rfl, rfl⟩ | ⟨w, rfl, rfl⟩⟩
    · exact absurd rfl hne
    · exact .inl ⟨rfl, .inl (by simp [hin])⟩
    · rcases eq_init_or_feed_of_after_acc_ne (s := { s with input := rest }) hne with hd | ⟨b, hd⟩
      · exact .inl ⟨by rw [hd]; rfl, .inr (by simp [hin, word_of_decode_init hd])⟩
      · exact .inr ⟨b, by simp [hin, word_of_decode_feed hd], by rw [hd]; rfl⟩

/-- Settles O29: four EXPECTs by the shift's arithmetic, and the writers of `EXP` by `after_exp_cases`. -/
theorem expIsTheBigEndianField : Obligations.ExpIsTheBigEndianField := by
  unfold Obligations.ExpIsTheBigEndianField
  refine ⟨fun s c0 c1 c2 c3 hempty => ?_, fun b s hshort => ?_, fun i s t h hne => ?_, fun s => ?_, fun s t h => ?_⟩
  · refine ⟨_, issueAll_eq _ s, ?_⟩
    rw [afterAll_four_expects hempty]
    exact ⟨rfl, rfl, rfl, rfl, rfl⟩
  · refine ⟨_, exec_eq_after (.expect b) s, ?_⟩
    rw [after_expect_short b hshort]
    exact ⟨extractLsb'_shiftInByte_low s.exp b, extractLsb'_shiftInByte_high s.exp b⟩
  · rw [exec_next_iff.mp h] at hne ⊢
    rcases after_exp_cases i s with ⟨hkeep, -⟩ | ⟨hinit, hzero, -⟩ | ⟨b, hexpect, -⟩
    · exact absurd hkeep hne
    · exact .inl ⟨hinit, hzero⟩
    · exact .inr ⟨b, hexpect⟩
  · exact ⟨_, exec_eq_after .init s, rfl⟩
  · cases h
    rfl

/-- EXPECT's flags (40_crc_commands.md R73): the verdict is cleared, and OVR is set by a full field and kept otherwise. -/
theorem after_expect_flags (b : Byte) (s : State) :
    (after (.expect b) s).done = false ∧ (after (.expect b) s).matched = false ∧ (after (.expect b) s).ckerr = false ∧
      (after (.expect b) s).trunc = false ∧ ((after (.expect b) s).ovr = true ↔ s.ovr = true ∨ s.expCnt = 4#3) ∧
      (after (.expect b) s).ill = s.ill := by
  rcases after_expect_cases b s with ⟨hfull, h⟩ | ⟨hshort, h⟩
  · simp [h, hfull]
  · simp [h, hshort]

/-- CHECK's flags (40_crc_commands.md R74): DONE, the three conditions, and no other. -/
theorem after_check_flags (s : State) :
    (after .check s).done = true ∧
      ((after .check s).matched = true ↔ s.expCnt = 4#3 ∧ s.ovr = false ∧ crcOut s = s.exp) ∧
      ((after .check s).ckerr = true ↔ s.expCnt = 4#3 ∧ s.ovr = false ∧ crcOut s ≠ s.exp) ∧
      ((after .check s).trunc = true ↔ s.expCnt < 4#3) ∧ (after .check s).ovr = s.ovr ∧ (after .check s).ill = s.ill := by
  rw [after_check_eq]
  exact ⟨rfl, (matchCond_iff s).trans and_assoc, (mismatchCond_iff s).trans and_assoc, decide_eq_true_iff, rfl, rfl⟩

/-- Settles O30: one row of R25's table per command, and reset's. -/
theorem flagWriters : Obligations.FlagWriters := by
  unfold Obligations.FlagWriters
  constructor
  · intro i s t h
    rw [exec_next_iff.mp h]
    cases i with
    | nop => exact ⟨rfl, rfl, rfl, rfl, rfl, rfl⟩
    | init => exact ⟨rfl, rfl, rfl, rfl, rfl, rfl⟩
    | feed b => exact ⟨rfl, rfl, rfl, rfl, rfl, rfl⟩
    | expect b => exact after_expect_flags b s
    | check => exact after_check_flags s
    | reserved w => exact ⟨rfl, rfl, rfl, rfl, rfl, rfl⟩
  · intro s t h
    cases h
    exact ⟨rfl, rfl, rfl, rfl, rfl, rfl⟩

end Sys2Proof.Machine
end

section
/-!
PROOFS, 20_memory.md R46, R47, R49: commands issued twice, a stream of commands, and the one host.
-/
namespace Sys2Proof.Machine

open Sys2Proof.Safety

/-- A reset and a command of the one host each end in a next state (20_memory.md R49). -/
theorem react_next_of_fromHost {i : Input} (h : fromHost i = true) (s : State) : ∃ t : State, react i s = .next t := by
  cases i with
  | reset => exact ⟨_, rfl⟩
  | command d w =>
    cases d with
    | host => exact ⟨_, exec_eq_after (decode w) s⟩
    | other => cases h

/-- Settles O9: the step of a second host's command is its refusal, and an idle step or the first input of the one host's
stream ends in a next state. -/
theorem onlyASecondHostIsRefused : Obligations.OnlyASecondHostIsRefused := by
  unfold Obligations.OnlyASecondHostIsRefused
  refine ⟨fun s w rest h => step_cons h, fun s hhost => ?_⟩
  cases hin : s.input with
  | nil => exact ⟨s, step_nil hin⟩
  | cons i rest =>
    rw [step_cons hin]
    exact react_next_of_fromHost (hhost i (by simp [hin])) _

theorem core_run_succ {s t : State} (h : step s = .next t) (k : Nat) :
    Host.Core.run Sys2Proof.core (k + 1) s = Host.Core.run Sys2Proof.core k t := by
  have hcore : Sys2Proof.core.step s = .next t := h
  simp only [Host.Core.run, hcore]

/-- The step on a stream that begins with a word of the one host takes that word and leaves the rest of the stream. -/
theorem step_command_host (w : CmdWord) (l : List Input) (s : State) :
    step { s with input := .command .host w :: l } = .next { after (decode w) s with input := l } := by
  rw [step_cons rfl, ← after_with_input]
  exact exec_eq_after _ _

/-- As many steps as words take exactly the words, in order (20_memory.md R47). -/
theorem core_run_words (ws : List CmdWord) (s : State) :
    Host.Core.run Sys2Proof.core ws.length { s with input := ws.map (Input.command .host) ++ s.input } =
      .next (afterAll ws s) := by
  induction ws generalizing s with
  | nil => rfl
  | cons w ws ih =>
    have hstep := step_command_host w (ws.map (Input.command .host) ++ s.input) s
    have hrest := ih (after (decode w) s)
    rw [after_input] at hrest
    exact (core_run_succ hstep ws.length).trans hrest

/-- Settles O55: the steps and the issued words leave the same state, `afterAll`. -/
theorem streamOrder : Obligations.StreamOrder := by
  unfold Obligations.StreamOrder
  exact fun ws s => (core_run_words ws s).trans (issueAll_eq ws s).symm

/-- CHECK reads `ACC`, `EXP`, `EXP_CNT` and OVR and writes none of them (40_crc_commands.md R74). -/
theorem after_check_check (s : State) : after .check (after .check s) = after .check s := by
  rw [after_check_eq (after .check s), after_check_eq s]
  rfl

theorem after_idempotent {i : Instr} (hi : i = .nop ∨ i = .check ∨ i = .init) (s : State) :
    after i (after i s) = after i s := by
  rcases hi with rfl | rfl | rfl
  · rfl
  · exact after_check_check s
  · rfl

/-- EXPECT while the field is short: the byte is shifted in and the count is the sum (40_crc_commands.md R73). -/
theorem after_expect_of_lt (b : Byte) {s : State} (hlt : s.expCnt.toNat < 4) :
    after (.expect b) s = clearVerdict { s with exp := shiftInByte s.exp b, expCnt := s.expCnt + 1#3 } := by
  rw [after_expect_short b (expCnt_ne_of_lt hlt (by decide)), appendExpected,
    nextCount_of_ne_seven b (expCnt_ne_of_lt hlt (by decide))]

/-- Two EXPECTs of one byte into a field with room for both shift twice and count twice. -/
theorem after_expect_expect (b : Byte) {s : State} (hlt : s.expCnt.toNat < 3) :
    after (.expect b) (after (.expect b) s) =
      clearVerdict { s with exp := shiftInByte (shiftInByte s.exp b) b, expCnt := s.expCnt + 2#3 } := by
  have hfirst := after_expect_of_lt b (s := s) (by omega)
  have hroom : (after (.expect b) s).expCnt.toNat < 4 := by
    rw [hfirst, clearVerdict_expCnt]
    bv_omega
  rw [after_expect_of_lt b hroom, hfirst, clearVerdict_expCnt, BitVec.add_assoc]
  rfl

/-- Two bytes shifted in leave the low two bytes of the old value in front of them. -/
theorem shiftInByte_shiftInByte (e : Word32) (b c : Byte) :
    shiftInByte (shiftInByte e b) c = e.extractLsb' 0 16 ++ b ++ c := by
  apply BitVec.eq_of_toNat_eq
  have hb := b.isLt
  simp only [shiftInByte_toNat, toNat_append_byte, BitVec.extractLsb'_toNat, Nat.shiftRight_zero]
  omega

/-- Settles O31: the three idempotent commands, FEED absorbing its byte twice (from reset, the byte 0 shows it), and EXPECT
counting it twice. -/
theorem whichCommandsAreIdempotent : Obligations.WhichCommandsAreIdempotent := by
  unfold Obligations.WhichCommandsAreIdempotent
  refine ⟨fun i s t hi h => ?_, fun b s => ?_, ?_, fun b s hlt => ?_⟩
  · rw [exec_next_iff.mp h, exec_eq_after, after_idempotent hi]
  · exact ⟨_, _, exec_eq_after _ s, exec_eq_after _ _, rfl, rfl⟩
  · exact ⟨0x00#8, State.reset, _, _, exec_eq_after _ _, exec_eq_after _ _, by decide +kernel⟩
  · have hne : s.expCnt + 2#3 ≠ s.expCnt + 1#3 := by bv_omega
    refine ⟨_, _, exec_eq_after _ s, exec_eq_after _ _, ?_⟩
    rw [after_expect_expect b hlt, after_expect_of_lt b (by omega), shiftInByte_shiftInByte]
    exact ⟨rfl, rfl, rfl, rfl, fun heq => hne (congrArg State.expCnt heq)⟩

end Sys2Proof.Machine
end

section
/-!
PROOFS, 30_encoding.md R50 to R55. A word is exactly its three fields, and an instruction is decoded from exactly its own
word (`decode_eq_iff`); the opcode map, the legal words and the reserved words are read off that.
-/
namespace Sys2Proof

/-- A word is the pack of three fields exactly if they are its fields. -/
theorem packWord_eq_iff (op z : BitVec 4) (b : Byte) (w : CmdWord) :
    packWord op z b = w ↔ opField w = op ∧ zField w = z ∧ bField w = b := by
  constructor
  · rintro rfl
    exact ⟨opField_packWord op z b, zField_packWord op z b, bField_packWord op z b⟩
  · rintro ⟨rfl, rfl, rfl⟩
    exact packWord_fields w

/-- What the decoder answers is a command of the block. -/
theorem wellFormed_decode (w : CmdWord) : WellFormed (decode w) = true := by
  rcases decode_cases w with ⟨-, hd⟩ | ⟨-, hd⟩ | ⟨-, hd⟩ | ⟨-, hd⟩ | ⟨-, hd⟩ | ⟨hres, hd⟩ <;> rw [hd]
  case inr.inr.inr.inr.inr => exact hres
  all_goals rfl

/-- R54's three cases exclude every word of a legal command. -/
theorem decode_of_isReserved {w : CmdWord} (h : isReserved w = true) : decode w = .reserved w := by
  rw [isReserved_iff] at h
  rcases decode_cases w with ⟨hw, -⟩ | ⟨hw, -⟩ | ⟨hw, -⟩ | ⟨hw, -⟩ | ⟨hw, -⟩ | ⟨-, hd⟩
  case inr.inr.inr.inr.inr => exact hd
  all_goals omega

/-- A command's word decodes to the command. -/
theorem decode_encode {i : Instr} (h : WellFormed i = true) : decode (encode i) = i := by
  cases i with
  | nop => rfl
  | init => rfl
  | feed b => exact Machine.decode_feed_word b
  | expect b => exact Machine.decode_expect_word b
  | check => rfl
  | reserved w => exact decode_of_isReserved h

/-- The word of a command of the block is the only one that decodes to it. -/
theorem decode_eq_iff {i : Instr} (h : WellFormed i = true) (w : CmdWord) : decode w = i ↔ w = encode i := by
  constructor
  · rintro rfl
    exact (encode_decode w).symm
  · rintro rfl
    exact decode_encode h

/-- Settles O16: one case per constructor, the reserved words by `decode_of_isReserved`. -/
theorem decodeOfEncode : Obligations.DecodeOfEncode := by
  unfold Obligations.DecodeOfEncode
  exact fun _ => decode_encode

/-- Settles O17: what the decoder can answer, case by case, is well formed and has the word's own fields. -/
theorem encodeOfDecode : Obligations.EncodeOfDecode := by
  unfold Obligations.EncodeOfDecode
  exact fun w => ⟨wellFormed_decode w, encode_decode w⟩

/-- Settles O12: the thirteen words evaluated. -/
theorem decodedWords : Obligations.DecodedWords := by
  unfold Obligations.DecodedWords
  decide

theorem decode_eq_nop_iff (w : CmdWord) : decode w = .nop ↔ w = 0x0000#16 := decode_eq_iff rfl w

theorem decode_eq_init_iff (w : CmdWord) : decode w = .init ↔ w = 0x1000#16 := decode_eq_iff rfl w

theorem decode_eq_check_iff (w : CmdWord) : decode w = .check ↔ w = 0x4000#16 := decode_eq_iff rfl w

theorem decode_eq_feed_iff (w : CmdWord) (b : Byte) :
    decode w = .feed b ↔ opField w = 0x2#4 ∧ zField w = 0x0#4 ∧ bField w = b :=
  (decode_eq_iff rfl w).trans (eq_comm.trans (packWord_eq_iff _ _ b w))

theorem decode_eq_expect_iff (w : CmdWord) (b : Byte) :
    decode w = .expect b ↔ opField w = 0x3#4 ∧ zField w = 0x0#4 ∧ bField w = b :=
  (decode_eq_iff rfl w).trans (eq_comm.trans (packWord_eq_iff _ _ b w))

/-- A word decodes as reserved exactly if it is one of R54's. -/
theorem decode_eq_reserved_iff (w : CmdWord) : decode w = .reserved w ↔ isReserved w = true :=
  ⟨fun h => (congrArg WellFormed h).symm.trans (wellFormed_decode w), decode_of_isReserved⟩

/-- The mask of FEED's and EXPECT's rows keeps `OP` and `Z` and clears `B`. -/
theorem and_opcodeMask (w : CmdWord) : w &&& 0xFF00#16 = packWord (opField w) (zField w) 0x00#8 := by
  have hmask : (0xFF00#16 : CmdWord) = packWord 0xF#4 0xF#4 0x00#8 := rfl
  have hones (v : BitVec 4) : v &&& 0xF#4 = v := BitVec.and_allOnes
  conv_lhs => rw [← packWord_fields w, hmask]
  rw [packWord, packWord, BitVec.and_append, BitVec.and_append, hones, hones, BitVec.and_zero]
  rfl

theorem and_opcodeMask_eq_iff (w : CmdWord) (op : BitVec 4) :
    w &&& 0xFF00#16 = packWord op 0x0#4 0x00#8 ↔ opField w = op ∧ zField w = 0x0#4 := by
  rw [and_opcodeMask, packWord_eq_iff, opField_packWord, zField_packWord, bField_packWord]
  simp [eq_comm]

theorem and_fullMask (w : CmdWord) : w &&& 0xFFFF#16 = w := BitVec.and_allOnes

/-- R54's three cases, by the fields of R50. -/
theorem isReserved_iff_fields (w : CmdWord) :
    isReserved w = true ↔
      0x5#4 ≤ opField w ∨ (opField w ≤ 0x4#4 ∧ zField w ≠ 0#4) ∨
        ((opField w = 0x0#4 ∨ opField w = 0x1#4 ∨ opField w = 0x4#4) ∧ bField w ≠ 0#8) := by
  simp only [isReserved_iff, BitVec.le_def, ne_eq, ← BitVec.toNat_inj, opField_toNat, zField_toNat, bField_toNat,
    BitVec.toNat_ofNat]
  omega

/-- Settles O13: the words of each legal command, and the mask as the fields it keeps. -/
theorem opcodeMap : Obligations.OpcodeMap := by
  unfold Obligations.OpcodeMap
  intro w
  simp only [and_fullMask]
  refine ⟨decode_eq_nop_iff w, decode_eq_init_iff w, ?_, ?_, decode_eq_check_iff w, fun hop => ?_⟩
  · calc decode w = .feed (bField w)
      _ ↔ opField w = 0x2#4 ∧ zField w = 0x0#4 := by simp [decode_eq_feed_iff]
      _ ↔ w &&& 0xFF00#16 = 0x2000#16 := (and_opcodeMask_eq_iff w 0x2#4).symm
  · calc decode w = .expect (bField w)
      _ ↔ opField w = 0x3#4 ∧ zField w = 0x0#4 := by simp [decode_eq_expect_iff]
      _ ↔ w &&& 0xFF00#16 = 0x3000#16 := (and_opcodeMask_eq_iff w 0x3#4).symm
  · exact decode_of_isReserved ((isReserved_iff_fields w).mpr (.inl hop))

/-- Settles O15: R54's cases by the fields, and `decode_eq_reserved_iff`. -/
theorem reservedWords : Obligations.ReservedWords := by
  unfold Obligations.ReservedWords
  intro w
  refine ⟨(decode_eq_reserved_iff w).trans (isReserved_iff_fields w), decode_eq_reserved_iff w, fun hres => ?_⟩
  rw [decode_of_isReserved hres]
  exact Instr.noConfusion

/-- The words with given `OP` and `Z` and any `B` are an interval. -/
theorem fields_eq_iff_mem_interval (w : CmdWord) (op z : BitVec 4) :
    (opField w = op ∧ zField w = z) ↔ packWord op z 0x00#8 ≤ w ∧ w ≤ packWord op z 0xFF#8 := by
  have hz := z.isLt
  simp only [← BitVec.toNat_inj, BitVec.le_def, opField_toNat, zField_toNat, packWord_toNat, BitVec.toNat_ofNat]
  omega

/-- Every byte, once. -/
def allBytes : List Byte := List.ofFn BitVec.ofFin

theorem mem_allBytes (b : Byte) : b ∈ allBytes := List.mem_ofFn.mpr ⟨b.toFin, rfl⟩

theorem nodup_allBytes : allBytes.Nodup := List.nodup_ofFn.mpr fun _ _ h => congrArg BitVec.toFin h

theorem length_allBytes : allBytes.length = 256 := List.length_ofFn

/-- The legal commands (30_encoding.md R53). -/
def legalInstrs : List Instr := [.nop, .init, .check] ++ (allBytes.map .feed ++ allBytes.map .expect)

theorem mem_legalInstrs_iff (i : Instr) : i ∈ legalInstrs ↔ ∀ v : CmdWord, i ≠ .reserved v := by
  cases i <;> simp [legalInstrs, mem_allBytes]

theorem nodup_legalInstrs : legalInstrs.Nodup := by
  have hfeed : (allBytes.map Instr.feed).Nodup := nodup_allBytes.map fun _ _ => Instr.feed.inj
  have hexpect : (allBytes.map Instr.expect).Nodup := nodup_allBytes.map fun _ _ => Instr.expect.inj
  have hoperand : (allBytes.map Instr.feed).Disjoint (allBytes.map Instr.expect) := by
    simp [List.disjoint_left]
  refine List.Nodup.append (by decide) (hfeed.append hexpect hoperand) ?_
  simp [List.disjoint_left]

theorem length_legalInstrs : legalInstrs.length = 515 := by
  simp [legalInstrs, length_allBytes]

theorem wellFormed_of_mem_legalInstrs {i : Instr} (h : i ∈ legalInstrs) : WellFormed i = true := by
  rw [mem_legalInstrs_iff] at h
  cases i with
  | reserved v => exact absurd rfl (h v)
  | _ => rfl

/-- The words of the legal commands. -/
def legalWordList : List CmdWord := legalInstrs.map encode

theorem nodup_legalWordList : legalWordList.Nodup := by
  refine nodup_legalInstrs.map_on fun i hi j hj h => ?_
  rw [← decode_encode (wellFormed_of_mem_legalInstrs hi), h, decode_encode (wellFormed_of_mem_legalInstrs hj)]

theorem mem_legalWordList_iff (w : CmdWord) : w ∈ legalWordList ↔ decode w ∈ legalInstrs := by
  rw [legalWordList, List.mem_map]
  constructor
  · rintro ⟨i, hi, rfl⟩
    rwa [decode_encode (wellFormed_of_mem_legalInstrs hi)]
  · exact fun h => ⟨decode w, h, encode_decode w⟩

/-- Settles O14: the words by their fields, and the list of the legal commands' words for the count. -/
theorem legalWords : Obligations.LegalWords := by
  unfold Obligations.LegalWords
  refine ⟨fun w => ⟨decode_eq_nop_iff w, decode_eq_init_iff w, decode_eq_check_iff w, ?_, ?_⟩,
    legalWordList, nodup_legalWordList, (List.length_map _).trans length_legalInstrs,
    fun w => (mem_legalWordList_iff w).trans (mem_legalInstrs_iff _)⟩
  · simp only [decode_eq_feed_iff, exists_and_left, exists_eq', and_true]
    exact fields_eq_iff_mem_interval w 0x2#4 0x0#4
  · simp only [decode_eq_expect_iff, exists_and_left, exists_eq', and_true]
    exact fields_eq_iff_mem_interval w 0x3#4 0x0#4

end Sys2Proof
end

section
/-!
PROOFS, 30_encoding.md R56 and R57. The pseudo-instructions' words; and a line of text: its mnemonic, a blank, and operands
that read back as the values they were written from, whatever of the line follows them.
-/
namespace Sys2Proof.Machine

theorem map_decode_feeds (m : List Byte) : (feeds m).map decode = m.map Instr.feed := by
  rw [feeds, List.map_map]
  exact List.map_congr_left fun b _ => decode_feed_word b

theorem map_decode_expects (m : List Byte) : (expects m).map decode = m.map Instr.expect := by
  rw [expects, List.map_map]
  exact List.map_congr_left fun b _ => decode_expect_word b

/-- Settles O18: FEEDs and EXPECTs decode one by one; the rest is the definition of each expansion. -/
theorem pseudoInstructions : Obligations.PseudoInstructions := by
  unfold Obligations.PseudoInstructions
  refine ⟨map_decode_feeds, rfl, fun v => map_decode_expects (bytesBE v), fun m => ?_, fun _ _ => rfl⟩
  exact congrArg (Instr.init :: ·) (map_decode_feeds m)

/-! ### The lines of the assembler -/

/-- A character of a token is no blank, no quote and no semicolon. -/
theorem isTokenChar_spec {c : Char} (h : isTokenChar c = true) :
    isBlankChar c = false ∧ (c.toNat == 39) = false ∧ (c.toNat == 59) = false := by
  have hval : c.val.toNat = c.toNat := rfl
  simp only [isTokenChar, Char.isAlphanum, Char.isAlpha, Char.isUpper, Char.isLower, Char.isDigit, ge_iff_le,
    UInt32.le_iff_toNat_le, hval, Bool.or_eq_true, Bool.and_eq_true, decide_eq_true_eq, beq_iff_eq, Char.reduceVal,
    UInt32.reduceToNat] at h
  simp only [isBlankChar, Bool.or_eq_false_iff, beq_eq_false_iff_ne]
  omega

/-- Blanks are skipped up to a token. -/
theorem skipBlanks_token {tok : List Char} (hne : tok ≠ []) (htok : tok.all isTokenChar = true) (rest : List Char) :
    skipBlanks (tok ++ rest) = tok ++ rest := by
  obtain ⟨c, cs, rfl⟩ := List.exists_cons_of_ne_nil hne
  have hc : isTokenChar c = true := List.all_eq_true.mp htok c List.mem_cons_self
  exact skipBlanks_of_not_blank (isTokenChar_spec hc).1 _

/-- A line that begins with a mnemonic and whose operands are read up to the line's end. -/
theorem assembleLine_mnemonic {mnemonic rest rest' : List Char} {l : AsmLine} (hne : mnemonic ≠ [])
    (htok : mnemonic.all isTokenChar = true) (hrest : EndsToken rest)
    (hread : readOperands mnemonic rest = some (l, rest')) (hend : isLineEnd rest' = true) :
    assembleLine (mnemonic ++ rest) = some (expandLine l) := by
  obtain ⟨c, cs, rfl⟩ := List.exists_cons_of_ne_nil hne
  have hc : isTokenChar c = true := List.all_eq_true.mp htok c List.mem_cons_self
  obtain ⟨hblank, -, hsemi⟩ := isTokenChar_spec hc
  exact assembleLine_of_operands htok hblank hsemi hrest hread hend

/-- The blank after a mnemonic ends it. -/
theorem endsToken_blank (rest : List Char) : EndsToken (' ' :: rest) := endsToken_cons (by decide) rest

/-- What may follow a command on its line: nothing that goes on with its last token, and no more text but a comment. -/
structure LineTail (rest : List Char) : Prop where
  endsToken : EndsToken rest
  lineEnd : isLineEnd rest = true

theorem lineTail_nil : LineTail [] := ⟨endsToken_nil, rfl⟩

/-- A comment directly after the command (30_encoding.md R56). -/
theorem lineTail_comment (comment : List Char) : LineTail (';' :: comment) := ⟨endsToken_cons (by decide) _, rfl⟩

/-- A comment after a blank. -/
theorem lineTail_blank_comment (comment : List Char) : LineTail (' ' :: ';' :: comment) := ⟨endsToken_blank _, rfl⟩

/-! ### The operands of each mnemonic -/

theorem readOperands_feed (cs : List Char) :
    readOperands "FEED".toList cs = (readByte (skipBlanks cs)).map fun r => (.instr (.feed r.1), r.2) := rfl

theorem readOperands_expect (cs : List Char) :
    readOperands "EXPECT".toList cs = (readByte (skipBlanks cs)).map fun r => (.instr (.expect r.1), r.2) := rfl

theorem readOperands_word (cs : List Char) : readOperands ".word".toList cs =
    (readNumber 65536 (skipBlanks cs)).map fun r => (.word (BitVec.ofNat 16 r.1), r.2) := rfl

theorem readOperands_expect32 (cs : List Char) : readOperands "EXPECT32".toList cs =
    (readNumber 4294967296 (skipBlanks cs)).map fun r => (.expect32 (BitVec.ofNat 32 r.1), r.2) := rfl

theorem readOperands_feeds (cs : List Char) :
    readOperands "FEEDS".toList cs = (readSeq cs.length cs).map fun r => (.feeds r.1, r.2) := rfl

theorem readOperands_crcOf (cs : List Char) :
    readOperands "CRCOF".toList cs = (readSeq cs.length cs).map fun r => (.crcOf r.1, r.2) := rfl

/-- VERIFY's operands: a byte sequence, a comma, a 32-bit value. -/
theorem readOperands_verify {cs rest : List Char} {m : List Byte} (hseq : readSeq cs.length cs = some (m, ',' :: rest)) :
    readOperands "VERIFY".toList cs =
      (readNumber 4294967296 (skipBlanks rest)).map fun r => (.verify m (BitVec.ofNat 32 r.1), r.2) := by
  have hcomma : skipBlanks (',' :: rest) = ',' :: rest := skipBlanks_of_not_blank (by decide) rest
  simp [readOperands, hseq, hcomma]

/-! ### Byte operands -/

/-- The text of a byte operand: it reads back as the byte wherever it stands at the end of a token. -/
def RendersByte (operand : List Char) (b : Byte) : Prop :=
  ∀ rest, EndsToken rest → readByte (skipBlanks (operand ++ rest)) = some (b, rest)

theorem rendersByte_hex (b : Byte) : RendersByte (renderByte b) b := fun rest h => by
  rw [skipBlanks_renderByte, readByte_hex b h]

theorem rendersByte_charLiteral {c : Char} (hc : c.toNat < 128) :
    RendersByte (renderCharLiteral c) (BitVec.ofNat 8 c.toNat) := fun rest _ => by
  have hskip : skipBlanks (renderCharLiteral c ++ rest) = renderCharLiteral c ++ rest :=
    skipBlanks_of_not_blank (by decide) _
  rw [hskip, readByte_charLiteral hc]

/-- A token without an `x` is a decimal number. -/
theorem tokenValue_decimal {tok : List Char} (hne : tok ≠ []) (hx : 'x' ∉ tok) : tokenValue tok = digitsValue 10 tok := by
  unfold tokenValue
  split
  · exact absurd rfl hne
  · simp at hx
  · rfl

theorem hexChar_ne_x : ∀ d < 16, hexChar d ≠ 'x' := by decide

/-- The value of decimal digits, most significant first, read on from `a`. -/
def decimalValue (a : Nat) (ds : List Nat) : Nat := ds.foldl (fun v d => v * 10 + d) a

theorem foldl_digitStep_decimal {ds : List Nat} (hds : ∀ d ∈ ds, d < 10) (a : Nat) :
    (ds.map hexChar).foldl (digitStep 10) (some a) = some (decimalValue a ds) := by
  induction ds generalizing a with
  | nil => rfl
  | cons d ds ih =>
    have hd : d < 10 := hds d List.mem_cons_self
    have hstep : digitStep 10 (some a) (hexChar d) = some (a * 10 + d) := by
      simp [digitStep, (hexChar_spec d (by omega)).2, hd]
    rw [List.map_cons, List.foldl_cons, hstep, ih fun e he => hds e (List.mem_cons_of_mem d he)]
    rfl

/-- Decimal digits whose value is a byte are an operand. -/
theorem rendersByte_digits {ds : List Nat} {b : Byte} (hne : ds ≠ []) (hds : ∀ d ∈ ds, d < 10)
    (hval : decimalValue 0 ds = b.toNat) : RendersByte (ds.map hexChar) b := fun rest hrest => by
  have htok : ∀ c ∈ ds.map hexChar, isTokenChar c = true := by
    simp only [List.forall_mem_map]
    exact fun d hd => (hexChar_spec d (by have := hds d hd; omega)).1
  have hx : 'x' ∉ ds.map hexChar := by
    simp only [List.mem_map, not_exists, not_and]
    exact fun d hd => hexChar_ne_x d (by have := hds d hd; omega)
  have hne' : ds.map hexChar ≠ [] := by simpa using hne
  have hv : tokenValue (ds.map hexChar) = some b.toNat := by
    rw [tokenValue_decimal hne' hx, digitsValue, foldl_digitStep_decimal hds, hval]
  rw [skipBlanks_token hne' (List.all_eq_true.mpr htok)]
  obtain ⟨c, cs, hcs⟩ := List.exists_cons_of_ne_nil hne'
  rw [hcs] at htok hv ⊢
  exact readByte_token b (isTokenChar_spec (htok c List.mem_cons_self)).2.1 htok hrest hv

theorem rendersByte_decimal (b : Byte) : RendersByte (renderDecimal b) b := by
  have hb := b.isLt
  unfold renderDecimal
  split_ifs with hten hhundred
  · exact rendersByte_digits (ds := [b.toNat]) (by simp) (by simpa using hten) (by simp [decimalValue])
  · exact rendersByte_digits (ds := [b.toNat / 10, b.toNat % 10]) (by simp) (by simp; omega) (by simp [decimalValue]; omega)
  · exact rendersByte_digits (ds := [b.toNat / 100, b.toNat / 10 % 10, b.toNat % 10]) (by simp) (by simp; omega)
      (by simp [decimalValue]; omega)

/-! ### Commands as text -/

/-- A line of FEED or EXPECT: a mnemonic whose operand is one byte, in any form. -/
theorem assembleLine_byteOperand {mnemonic operand rest : List Char} {mk : Byte → Instr} {b : Byte} (hne : mnemonic ≠ [])
    (htok : mnemonic.all isTokenChar = true)
    (hops : ∀ cs, readOperands mnemonic cs = (readByte (skipBlanks cs)).map fun r => (.instr (mk r.1), r.2))
    (hop : RendersByte operand b) (htail : LineTail rest) :
    assembleLine (mnemonic ++ ' ' :: (operand ++ rest)) = some [encode (mk b)] := by
  have hread : readOperands mnemonic (' ' :: (operand ++ rest)) = some (.instr (mk b), rest) := by
    rw [hops, skipBlanks_space, hop rest htail.endsToken]
    rfl
  exact assembleLine_mnemonic hne htok (endsToken_blank _) hread htail.lineEnd

theorem assembleLine_feed {operand rest : List Char} {b : Byte} (hop : RendersByte operand b) (htail : LineTail rest) :
    assembleLine ("FEED ".toList ++ operand ++ rest) = some [encode (.feed b)] :=
  assembleLine_byteOperand (mnemonic := "FEED".toList) (by decide) (by decide) readOperands_feed hop htail

theorem assembleLine_expect {operand rest : List Char} {b : Byte} (hop : RendersByte operand b) (htail : LineTail rest) :
    assembleLine ("EXPECT ".toList ++ operand ++ rest) = some [encode (.expect b)] :=
  assembleLine_byteOperand (mnemonic := "EXPECT".toList) (by decide) (by decide) readOperands_expect hop htail

theorem assembleLine_word (w : CmdWord) {rest : List Char} (htail : LineTail rest) :
    assembleLine (".word ".toList ++ renderWord w ++ rest) = some [w] := by
  have hskip : skipBlanks (renderWord w ++ rest) = renderWord w ++ rest := skipBlanks_of_not_blank (by decide) _
  have hread : readOperands ".word".toList (' ' :: (renderWord w ++ rest)) = some (.word w, rest) := by
    rw [readOperands_word, skipBlanks_space, hskip, readNumber_word w htail.endsToken]
    simp
  exact assembleLine_mnemonic (by decide) (by decide) (endsToken_blank _) hread htail.lineEnd

/-- Every instruction as text, with whatever may follow it on the line. -/
theorem assembleLine_renderInstr (i : Instr) {rest : List Char} (htail : LineTail rest) :
    assembleLine (renderInstr i ++ rest) = some [encode i] := by
  cases i with
  | nop => exact assembleLine_mnemonic (mnemonic := "NOP".toList) (by decide) (by decide) htail.endsToken rfl htail.lineEnd
  | init => exact assembleLine_mnemonic (mnemonic := "INIT".toList) (by decide) (by decide) htail.endsToken rfl htail.lineEnd
  | feed b => exact assembleLine_feed (rendersByte_hex b) htail
  | expect b => exact assembleLine_expect (rendersByte_hex b) htail
  | check => exact assembleLine_mnemonic (mnemonic := "CHECK".toList) (by decide) (by decide) htail.endsToken rfl htail.lineEnd
  | reserved w => exact assembleLine_word w htail

/-- Settles O19: each form of an operand renders its byte, and each of the three line ends is a `LineTail`. -/
theorem assembledText : Obligations.AssembledText := by
  unfold Obligations.AssembledText
  have feed {operand : List Char} {b : Byte} (h : RendersByte operand b) :
      assembleLine ("FEED ".toList ++ operand) = some [encode (.feed b)] := by
    simpa only [List.append_nil] using assembleLine_feed h lineTail_nil
  have expect {operand : List Char} {b : Byte} (h : RendersByte operand b) :
      assembleLine ("EXPECT ".toList ++ operand) = some [encode (.expect b)] := by
    simpa only [List.append_nil] using assembleLine_expect h lineTail_nil
  refine ⟨fun i comment => ⟨?_, ?_, ?_⟩, fun b => ⟨?_, ?_, ?_, ?_⟩, fun c hc => ⟨?_, ?_⟩, fun w => ?_⟩
  · simpa only [List.append_nil] using assembleLine_renderInstr i lineTail_nil
  · exact assembleLine_renderInstr i (lineTail_comment comment)
  · exact assembleLine_renderInstr i (lineTail_blank_comment comment)
  · exact feed (rendersByte_hex b)
  · exact expect (rendersByte_hex b)
  · exact feed (rendersByte_decimal b)
  · exact expect (rendersByte_decimal b)
  · exact feed (rendersByte_charLiteral hc)
  · exact expect (rendersByte_charLiteral hc)
  · simpa only [List.append_nil] using assembleLine_word w lineTail_nil

/-! ### Pseudo-instructions as text -/

/-- The text of a byte sequence: it reads back as the bytes whatever follows it. -/
def RendersSeq (text : List Char) (m : List Byte) : Prop :=
  ∀ rest, readSeqAtom (skipBlanks (text ++ rest)) = some (m, rest)

theorem rendersSeq_list (m : List Byte) : RendersSeq (renderList m) m := fun rest => by
  have hskip : skipBlanks (renderList m ++ rest) = renderList m ++ rest := skipBlanks_of_not_blank (by decide) _
  rw [hskip, readSeqAtom_list]

theorem rendersSeq_text {cs : List Char} (hcs : ∀ c ∈ cs, c.toNat < 128 ∧ c.toNat ≠ 34) :
    RendersSeq (renderText cs) (textBytes cs) := fun rest => by
  have hskip : skipBlanks (renderText cs ++ rest) = renderText cs ++ rest := skipBlanks_of_not_blank (by decide) _
  rw [hskip, readSeqAtom_text hcs]

/-- A sequence after the mnemonic's blank is read up to what follows it, if that is no `++`. -/
theorem readSeq_blank {text rest : List Char} {m : List Byte} (hseq : RendersSeq text m)
    (hplus : ∀ r, skipBlanks rest ≠ '+' :: '+' :: r) :
    readSeq (' ' :: (text ++ rest)).length (' ' :: (text ++ rest)) = some (m, rest) :=
  readSeq_of_atom (by simp) (hseq rest) hplus

/-- A line of FEEDS or CRCOF: a mnemonic whose operand is one byte sequence. -/
theorem assembleLine_seqOperand {mnemonic text : List Char} {mk : List Byte → AsmLine} {m : List Byte} (hne : mnemonic ≠ [])
    (htok : mnemonic.all isTokenChar = true)
    (hops : ∀ cs, readOperands mnemonic cs = (readSeq cs.length cs).map fun r => (mk r.1, r.2)) (hseq : RendersSeq text m) :
    assembleLine (mnemonic ++ ' ' :: text) = some (expandLine (mk m)) := by
  have hread : readOperands mnemonic (' ' :: (text ++ [])) = some (mk m, []) := by
    rw [hops, readSeq_blank hseq (by simp [skipBlanks])]
    rfl
  rw [List.append_nil] at hread
  exact assembleLine_mnemonic hne htok (endsToken_blank _) hread rfl

theorem assembleLine_feeds {text : List Char} {m : List Byte} (hseq : RendersSeq text m) :
    assembleLine ("FEEDS ".toList ++ text) = some (expandLine (.feeds m)) :=
  assembleLine_seqOperand (mnemonic := "FEEDS".toList) (by decide) (by decide) readOperands_feeds hseq

theorem assembleLine_crcOf {text : List Char} {m : List Byte} (hseq : RendersSeq text m) :
    assembleLine ("CRCOF ".toList ++ text) = some (expandLine (.crcOf m)) :=
  assembleLine_seqOperand (mnemonic := "CRCOF".toList) (by decide) (by decide) readOperands_crcOf hseq

/-- A rendered 32-bit value after blanks, at the end of the line. -/
theorem readNumber_blank_word32 (v : Word32) :
    readNumber 4294967296 (skipBlanks (' ' :: renderWord32 v)) = some (v.toNat, []) := by
  have hskip : skipBlanks (renderWord32 v) = renderWord32 v := skipBlanks_of_not_blank (by decide) _
  rw [skipBlanks_space, hskip]
  simpa only [List.append_nil] using readNumber_word32 v endsToken_nil

theorem assembleLine_expect32 (v : Word32) :
    assembleLine ("EXPECT32 ".toList ++ renderWord32 v) = some (expandLine (.expect32 v)) := by
  have hread : readOperands "EXPECT32".toList (' ' :: renderWord32 v) = some (.expect32 v, []) := by
    rw [readOperands_expect32, readNumber_blank_word32]
    simp
  exact assembleLine_mnemonic (mnemonic := "EXPECT32".toList) (by decide) (by decide) (endsToken_blank _) hread rfl

theorem assembleLine_verify {text : List Char} {m : List Byte} (hseq : RendersSeq text m) (v : Word32) :
    assembleLine ("VERIFY ".toList ++ text ++ ", ".toList ++ renderWord32 v) = some (expandLine (.verify m v)) := by
  have hplus : ∀ r, skipBlanks (',' :: ' ' :: renderWord32 v) ≠ '+' :: '+' :: r := fun r h => by
    rw [skipBlanks_of_not_blank (by decide)] at h
    exact absurd (List.cons.inj h).1 (by decide)
  have hread : readOperands "VERIFY".toList (' ' :: (text ++ ',' :: ' ' :: renderWord32 v)) = some (.verify m v, []) := by
    rw [readOperands_verify (readSeq_blank hseq hplus), readNumber_blank_word32]
    simp
  have hline : "VERIFY ".toList ++ text ++ ", ".toList ++ renderWord32 v =
      "VERIFY".toList ++ ' ' :: (text ++ ',' :: ' ' :: renderWord32 v) := by simp
  rw [hline]
  exact assembleLine_mnemonic (by decide) (by decide) (endsToken_blank _) hread rfl

/-- Settles O57: a bracketed list and a text in quotes each render their bytes, and each mnemonic reads any such sequence. -/
theorem pseudoInstructionsAsText : Obligations.PseudoInstructionsAsText := by
  unfold Obligations.PseudoInstructionsAsText
  have lines {text : List Char} {m : List Byte} (h : RendersSeq text m) (v : Word32) :
      assembleLine ("FEEDS ".toList ++ text) = some (expandLine (.feeds m)) ∧
      assembleLine ("CRCOF ".toList ++ text) = some (expandLine (.crcOf m)) ∧
      assembleLine ("VERIFY ".toList ++ text ++ ", ".toList ++ renderWord32 v) = some (expandLine (.verify m v)) :=
    ⟨assembleLine_feeds h, assembleLine_crcOf h, assembleLine_verify h v⟩
  exact ⟨assembleLine_expect32, fun m => lines (rendersSeq_list m), fun _ v hcs => lines (rendersSeq_text hcs) v⟩

end Sys2Proof.Machine
end

section
/-!
PROOFS, 40_crc_commands.md R67, R68, R76: the datapath. `CrcStep` is linear, shifts a value whose low byte is 0, and is the
mirror image of the parameter model's step.
-/
namespace Sys2Proof.Machine

/-- `CrcStep` is linear over GF(2): each of its eight iterations is. -/
theorem crcStep_xor (a1 a2 : Word32) (b1 b2 : Byte) :
    crcStep (a1 ^^^ a2) (b1 ^^^ b2) = crcStep a1 b1 ^^^ crcStep a2 b2 := by
  have hxor : a1 ^^^ a2 ^^^ (b1 ^^^ b2).setWidth 32 = (a1 ^^^ b1.setWidth 32) ^^^ (a2 ^^^ b2.setWidth 32) := by
    rw [BitVec.setWidth_xor]
    ac_rfl
  rw [crcStep, hxor, reflectedShift_iterate_xor]
  rfl

/-- Settles O43: `crcStep_xor`, and its case `a = a ^ 0`, `b = 0 ^ b`. -/
theorem crcStepIsLinear : Obligations.CrcStepIsLinear := by
  unfold Obligations.CrcStepIsLinear
  refine ⟨crcStep_xor, fun a b => ?_⟩
  simpa only [BitVec.xor_zero, BitVec.zero_xor] using crcStep_xor a 0x00000000#32 0x00#8 b

/-- Where bit 0 is 0 an iteration is a shift. -/
theorem reflectedShift_of_bit_zero {v : Word32} (h : v.getLsbD 0 = false) : reflectedShift v = v >>> 1 := by
  rw [reflectedShift_eq, h]
  exact BitVec.xor_zero

/-- Iterations that see only zeros at bit 0 shift and do nothing else. -/
theorem reflectedShift_iterate_of_low_zero {k : Nat} {v : Word32} (hlow : ∀ i < k, v.getLsbD i = false) :
    reflectedShift^[k] v = v >>> k := by
  induction k generalizing v with
  | zero => exact (BitVec.ushiftRight_zero v).symm
  | succ k ih =>
    have hrest : ∀ i < k, (v >>> 1).getLsbD i = false := fun i hi => by
      rw [BitVec.getLsbD_ushiftRight]
      exact hlow (1 + i) (by omega)
    rw [Function.iterate_succ_apply, reflectedShift_of_bit_zero (hlow 0 k.succ_pos), ih hrest, ← BitVec.shiftRight_add,
      Nat.add_comm]

/-- A byte reaches only the low byte of a 32-bit value. -/
theorem xor_byte_ushiftRight (v : Word32) (b : Byte) : (v ^^^ b.setWidth 32) >>> 8 = v >>> 8 := by
  apply BitVec.eq_of_getLsbD_eq
  intro i _
  simp

/-- Eight iterations shift the upper 24 bits down and take the low byte to its table entry. -/
theorem reflectedShift_iterate_eight (v : Word32) : reflectedShift^[8] v = v >>> 8 ^^^ crcTable (v.extractLsb' 0 8) := by
  generalize hlow : v.extractLsb' 0 8 = low
  have hzero : ∀ i < 8, (v ^^^ low.setWidth 32).getLsbD i = false := fun i hi => by
    simp [← hlow, hi, show i < 32 by omega]
  have hsplit : v = v ^^^ low.setWidth 32 ^^^ low.setWidth 32 := by rw [BitVec.xor_assoc, BitVec.xor_self, BitVec.xor_zero]
  calc reflectedShift^[8] v
    _ = reflectedShift^[8] (v ^^^ low.setWidth 32) ^^^ reflectedShift^[8] (low.setWidth 32) := by
      rw [← reflectedShift_iterate_xor, ← hsplit]
    _ = v >>> 8 ^^^ crcTable low := by
      rw [reflectedShift_iterate_of_low_zero hzero, xor_byte_ushiftRight, crcTable, crcStep, BitVec.zero_xor]

/-- The table form of `CrcStep` (40_crc_commands.md R68). -/
theorem crcStep_eq_tableStep (acc : Word32) (b : Byte) : crcStep acc b = tableStep acc b := by
  rw [crcStep, reflectedShift_iterate_eight, xor_byte_ushiftRight, tableStep]

/-- Settles O42: `crcStep_eq_tableStep`, `reflectedShift_xor`, and the four entries evaluated. -/
theorem tableFormOfTheDatapath : Obligations.TableFormOfTheDatapath := by
  unfold Obligations.TableFormOfTheDatapath
  refine ⟨fun _ => rfl, crcStep_eq_tableStep, reflectedShift_xor, ?_⟩
  decide +kernel

theorem reflect_xor {n : Nat} (v w : BitVec n) : reflect (v ^^^ w) = reflect v ^^^ reflect w := by
  apply BitVec.eq_of_getLsbD_eq
  intro i hi
  rw [BitVec.getLsbD_xor]
  simp only [getLsbD_reflect, BitVec.getLsbD_xor, decide_eq_true hi, Bool.true_and]

/-- A shift up is the mirror image of a shift down. -/
theorem reflect_shiftLeft {n : Nat} (v : BitVec n) (k : Nat) : reflect (v <<< k) = reflect v >>> k := by
  apply BitVec.eq_of_getLsbD_eq
  intro i hi
  have hinside : n - 1 - i < n := by omega
  have hkept : ¬ n - 1 - i < k ↔ k + i < n := by omega
  have hbit : n - 1 - i - k = n - 1 - (k + i) := by omega
  rw [BitVec.getLsbD_ushiftRight, getLsbD_reflect, getLsbD_reflect, BitVec.getLsbD_shiftLeft, hbit, ← decide_not]
  simp only [hi, hinside, hkept, decide_true, Bool.true_and]

/-- One iteration of the datapath is the mirror image of the parameter model's (40_crc_commands.md R67). -/
theorem reflect_normalShift : Function.Semiconj reflect normalShift reflectedShift := fun v => by
  have hbit : (reflect v).getLsbD 0 = v.getLsbD 31 := by rw [getLsbD_reflect]; rfl
  have hzero : reflect 0#32 = 0#32 := by decide +kernel
  rw [normalShift_eq, reflectedShift_eq, reflect_xor, reflect_shiftLeft, hbit, apply_ite reflect, reflect_poly, hzero]

/-- The byte that enters the top of the register reflected is the byte that enters the low end as it is. -/
theorem reflect_top_byte (b : Byte) : reflect ((reflect b).setWidth 32 <<< 24) = b.setWidth 32 := by
  apply BitVec.eq_of_getLsbD_eq
  intro i hi
  rw [reflect_shiftLeft, BitVec.getLsbD_ushiftRight, getLsbD_reflect, BitVec.getLsbD_setWidth, getLsbD_reflect,
    BitVec.getLsbD_setWidth]
  by_cases hbyte : i < 8
  · have hbit : 8 - 1 - (32 - 1 - (24 + i)) = i := by omega
    have hin : 24 + i < 32 ∧ 32 - 1 - (24 + i) < 32 ∧ 32 - 1 - (24 + i) < 8 := by omega
    simp only [hbit, hin, hi, decide_true, Bool.true_and]
  · have hout : ¬ 24 + i < 32 := by omega
    rw [decide_eq_false hout, Bool.false_and, BitVec.getLsbD_of_ge b i (by omega), Bool.and_false]

/-- A byte's step in the datapath is the mirror image of its step in the parameter model. -/
theorem reflect_normalStep (reg : Word32) (b : Byte) : reflect (normalStep reg b) = crcStep (reflect reg) b := by
  calc reflect (normalStep reg b)
    _ = reflectedShift^[8] (reflect (reg ^^^ (reflect b).setWidth 32 <<< 24)) := reflect_normalShift.iterate_right 8 _
    _ = crcStep (reflect reg) b := by rw [reflect_xor, reflect_top_byte]; rfl

/-- INIT is its own reflection, so the two folds stay mirror images (40_crc_commands.md R67). -/
theorem accOf_eq_reflect (m : List Byte) : accOf m = reflect (regOf m) := by
  have hinit : reflect Config.crcInit = Config.crcInit := reflect_allOnes 32
  calc accOf m
    _ = m.foldl crcStep (reflect Config.crcInit) := by rw [hinit]; rfl
    _ = reflect (regOf m) := List.foldl_hom reflect fun reg b => (reflect_normalStep reg b).symm

/-- The checksum is the datapath's fold and the final XOR. -/
theorem crc_eq_accOf_xor (m : List Byte) : crc m = accOf m ^^^ 0xFFFFFFFF#32 := by
  rw [accOf_eq_reflect]
  rfl

/-- Settles O41: by induction over the bytes (`List.foldl_hom`), one mirrored step at a time. -/
theorem datapathComputesTheParameterModel : Obligations.DatapathComputesTheParameterModel := by
  unfold Obligations.DatapathComputesTheParameterModel
  exact fun m => ⟨accOf_eq_reflect m, crc_eq_accOf_xor m⟩

end Sys2Proof.Machine
end

section
/-!
PROOFS, 40_crc_commands.md R70 to R75: each command's effect and frame, from `after`'s equations.
-/
namespace Sys2Proof.Machine

/-- Settles O20: NOP's meaning is the state it finds. -/
theorem nopLeavesTheState : Obligations.NopLeavesTheState := by
  unfold Obligations.NopLeavesTheState
  exact ⟨(decode_eq_nop_iff _).mpr rfl, exec_eq_after .nop⟩

/-- After INIT `crc_out` is the final XOR of the initial value, 0 (10_state.md R29). -/
theorem crcOut_startChecksum (s : State) : crcOut (startChecksum s) = 0x00000000#32 := by
  rw [crcOut_eq_iff]
  rfl

/-- After INIT every bit of the status word but ILL is 0. -/
theorem statusOut_startChecksum (s : State) : statusOut (startChecksum s) = if s.ill then 0x0020#16 else 0x0000#16 := by
  cases h : s.ill <;> simp [statusOut, h]

/-- Settles O21: INIT writes constants, so a second one and whatever the field held make no difference. -/
theorem initStartsAChecksum : Obligations.InitStartsAChecksum := by
  unfold Obligations.InitStartsAChecksum
  refine ⟨(decode_eq_init_iff _).mpr rfl, fun s => ?_⟩
  refine ⟨_, exec_eq_after .init s, rfl, exec_next_iff.mpr rfl, crcOut_startChecksum s, fun hill _ => ⟨rfl, ?_⟩⟩
  exact (statusOut_startChecksum s).trans (if_pos hill)

/-- FEED's and EXPECT's words with the operand written out (30_encoding.md R52). -/
theorem decode_feed_byte (b : Byte) : decode (0x20#8 ++ b) = .feed b := decode_feed_word b

theorem decode_expect_byte (b : Byte) : decode (0x30#8 ++ b) = .expect b := decode_expect_word b

/-- Settles O22: FEED's two updates, and its step evaluated on the rule's three bytes. -/
theorem feedAbsorbsAByte : Obligations.FeedAbsorbsAByte := by
  unfold Obligations.FeedAbsorbsAByte
  refine ⟨decode_feed_byte, fun b s => exec_eq_after (.feed b) s, fun s hinit => ?_⟩
  have hacc (b : Byte) : (after (.feed b) s).acc = crcStep 0xFFFFFFFF#32 b := by rw [after_acc, hinit]
  refine ⟨⟨_, exec_eq_after _ s, ?_, ?_⟩, ⟨_, exec_eq_after _ s, ?_⟩, ⟨_, exec_eq_after _ s, ?_, ?_⟩⟩ <;>
    simp only [crcOut, hacc] <;> decide +kernel

/-- EXPECT below 4 in the rule's own words (40_crc_commands.md R73). -/
theorem exec_expect_of_lt (b : Byte) {s : State} (hlt : s.expCnt.toNat < 4) :
    exec (.expect b) s =
      .next { s with exp := s.exp.extractLsb' 0 24 ++ b, expCnt := s.expCnt + 1#3,
                     done := false, matched := false, ckerr := false, trunc := false } := by
  rw [exec_eq_after, after_expect_of_lt b hlt]
  rfl

/-- Settles O23: the full and the short field, and the first byte into the field INIT empties. -/
theorem expectAbsorbsACrcByte : Obligations.ExpectAbsorbsACrcByte := by
  unfold Obligations.ExpectAbsorbsACrcByte
  refine ⟨decode_expect_byte, fun b s hfull => ?_, fun b s => exec_expect_of_lt b, fun s => ?_⟩
  · rw [exec_eq_after, after_expect_full b hfull]
    rfl
  · refine ⟨startChecksum s, _, exec_eq_after .init s, exec_expect_of_lt _ (by simp), by simp [expOut], fun hill => ?_⟩
    simp [statusOut, hill]

/-- Settles O24: a count above 4 is not a full field, and the count EXPECT writes is `nextCount`. -/
theorem expectBeforeTheFirstReset : Obligations.ExpectBeforeTheFirstReset := by
  unfold Obligations.ExpectBeforeTheFirstReset
  intro b s habove
  have hshort : s.expCnt ≠ 4#3 := fun h => absurd habove (by simp [h])
  refine ⟨nextCount b s, fun hlt => ?_, ?_⟩
  · have hne7 : s.expCnt ≠ 7#3 := fun h => absurd hlt (by simp [h])
    rw [nextCount_of_ne_seven b hne7, BitVec.toNat_add]
    exact Nat.mod_eq_of_lt (Nat.succ_lt_succ hlt)
  · rw [exec_eq_after, after_expect_short b hshort]
    rfl

/-- Settles O26: R54's words decode as reserved, and the examples are such words. -/
theorem reservedWordSetsIll : Obligations.ReservedWordSetsIll := by
  unfold Obligations.ReservedWordSetsIll
  have hexec (w : CmdWord) (s : State) (hres : isReserved w = true) : exec (decode w) s = .next { s with ill := true } := by
    rw [decode_of_isReserved hres]
    exact exec_eq_after (.reserved w) s
  refine ⟨fun w s => exec_eq_after (.reserved w) s, hexec, fun s => ?_, fun s => hexec _ s (by decide)⟩
  refine ⟨startChecksum s, _, exec_eq_after .init s, hexec _ _ (by decide), ?_⟩
  exact (statusOut_startChecksum { s with ill := true }).trans (if_pos rfl)

/-- What EXPECT leaves unchanged (40_crc_commands.md R73). -/
theorem after_expect_frame (b : Byte) (s : State) :
    (after (.expect b) s).acc = s.acc ∧ (after (.expect b) s).ill = s.ill ∧
      (s.expCnt = 4#3 → (after (.expect b) s).exp = s.exp ∧ (after (.expect b) s).expCnt = s.expCnt) ∧
      (s.expCnt ≠ 4#3 → (after (.expect b) s).ovr = s.ovr) := by
  rcases after_expect_cases b s with ⟨hfull, h⟩ | ⟨hshort, h⟩
  · simp [h, hfull]
  · simp [h, hshort]

/-- Settles O27: one frame per command. -/
theorem commandFrames : Obligations.CommandFrames := by
  unfold Obligations.CommandFrames
  intro i s t h
  rw [exec_next_iff.mp h]
  refine ⟨after_input i s, ?_⟩
  cases i with
  | nop => rfl
  | init => rfl
  | feed b => exact ⟨rfl, rfl, rfl, rfl⟩
  | expect b => exact after_expect_frame b s
  | check => simp [after_check_eq]
  | reserved w => exact ⟨rfl, rfl, rfl, rfl, rfl, rfl, rfl, rfl⟩

/-- CHECK of a full field without an overrun (40_crc_commands.md R74): MATCH is the comparison, CKERR is its negation. -/
theorem after_check_of_full {s : State} (hfull : s.expCnt = 4#3) (hovr : s.ovr = false) :
    after .check s =
      { s with done := true, matched := decide (crcOut s = s.exp), ckerr := !decide (crcOut s = s.exp), trunc := false } := by
  have hcomp : comparable s = true := (comparable_iff s).mpr ⟨hfull, hovr⟩
  have htrunc : truncCond s = false := by simp [truncCond, hfull, Config.expBytes]
  rw [after_check_eq, matchCond, mismatchCond, hcomp, htrunc]
  simp [bne, beq_eq_decide]

/-- The four bytes of a value, put together again (20_memory.md R43). -/
theorem append_bytes (v : Word32) :
    v.extractLsb' 24 8 ++ v.extractLsb' 16 8 ++ v.extractLsb' 8 8 ++ v.extractLsb' 0 8 = v := by
  apply BitVec.eq_of_toNat_eq
  have hv := v.isLt
  simp only [toNat_append_byte, BitVec.extractLsb'_toNat, Nat.shiftRight_eq_div_pow]
  omega

theorem afterAll_init_cons (ws : List CmdWord) (s : State) :
    afterAll (encode .init :: ws) s = afterAll ws (startChecksum s) := rfl

/-- VERIFY of a stream against a value is a CHECK of the stream's `ACC` against that value, from any state (30_encoding.md
R57, 41_chunk_validation.md R95). -/
theorem afterAll_verifyWords (m : List Byte) (v : Word32) (s : State) :
    afterAll (verifyWords m v) s = after .check { startChecksum s with acc := accOf m, exp := v, expCnt := 4#3 } := by
  have hfeeds : afterAll (feeds m) (startChecksum s) = { startChecksum s with acc := accOf m } :=
    afterAll_feeds m rfl rfl rfl rfl
  rw [verifyWords, afterAll_init_cons, afterAll_append, afterAll_append, hfeeds, expect32, bytesBE,
    afterAll_four_expects rfl, append_bytes]
  rfl

/-- Settles O25: `after_check_flags` gives the formulas, `after_check_check` the idempotence, and the example is VERIFY's last
CHECK on the crc of "IEND". -/
theorem checkComparesTheCrcs : Obligations.CheckComparesTheCrcs := by
  unfold Obligations.CheckComparesTheCrcs
  refine ⟨(decode_eq_check_iff _).mpr rfl, fun s => ⟨_, exec_eq_after .check s, ?_⟩,
    fun s hill => ⟨_, issueAll_eq _ s, ?_⟩⟩
  · obtain ⟨-, hmatch, hckerr, htrunc, -, -⟩ := after_check_flags s
    refine ⟨by rw [after_check_eq], hmatch, hckerr, htrunc, exec_next_iff.mpr (after_check_check s).symm, fun hacc hm => ?_⟩
    obtain ⟨-, -, heq⟩ := hmatch.mp hm
    rw [← heq, crcOut, hacc]
    rfl
  · have hcrc : accOf [0x49#8, 0x45#8, 0x4E#8, 0x44#8] ^^^ Config.xorOut = 0xAE426082#32 := by decide +kernel
    rw [afterAll_verifyWords, after_check_of_full rfl rfl]
    simp [statusOut, crcOut, hcrc, hill]

end Sys2Proof.Machine
end

section
/-!
PROOFS, 40_crc_commands.md R69, R73, R74 and 70_reset_and_hazards.md R135: sequences of words without INIT. `ACC` follows the
FEEDs among them and `EXP` the EXPECTs, each whatever stands between.
-/
namespace Sys2Proof.Machine

open Sys2Proof.Safety

/-- What the first word adds to the bytes fed. -/
theorem fedBytes_cons_feed {w : CmdWord} {b : Byte} (h : decode w = .feed b) (ws : List CmdWord) :
    fedBytes (w :: ws) = b :: fedBytes ws := by
  simp [fedBytes, h]

theorem fedBytes_cons_of_ne {w : CmdWord} (h : ∀ b, decode w ≠ .feed b) (ws : List CmdWord) :
    fedBytes (w :: ws) = fedBytes ws := by
  cases hd : decode w with
  | feed b => exact absurd hd (h b)
  | _ => simp [fedBytes, hd]

/-- What the first word adds to the bytes offered. -/
theorem offeredBytes_cons_expect {w : CmdWord} {b : Byte} (h : decode w = .expect b) (ws : List CmdWord) :
    offeredBytes (w :: ws) = b :: offeredBytes ws := by
  simp [offeredBytes, h]

theorem offeredBytes_cons_of_ne {w : CmdWord} (h : ∀ b, decode w ≠ .expect b) (ws : List CmdWord) :
    offeredBytes (w :: ws) = offeredBytes ws := by
  cases hd : decode w with
  | expect b => exact absurd hd (h b)
  | _ => simp [offeredBytes, hd]

/-- A command that is neither INIT nor FEED keeps `ACC` (10_state.md R21). -/
theorem after_acc_of_ne {i : Instr} (hinit : i ≠ .init) (hfeed : ∀ b, i ≠ .feed b) (s : State) :
    (after i s).acc = s.acc := by
  by_contra hne
  rcases eq_init_or_feed_of_after_acc_ne hne with h | ⟨b, h⟩
  · exact hinit h
  · exact hfeed b h

/-- Without an INIT, `ACC` absorbs exactly the bytes fed, in order (40_crc_commands.md R69). -/
theorem afterAll_acc {ws : List CmdWord} (hws : NoInit ws) (s : State) :
    (afterAll ws s).acc = (fedBytes ws).foldl crcStep s.acc := by
  induction ws generalizing s with
  | nil => rfl
  | cons w ws ih =>
    obtain ⟨hw, hws⟩ := List.forall_mem_cons.mp hws
    rw [afterAll_cons, ih hws]
    by_cases hfeed : ∃ b, decode w = .feed b
    · obtain ⟨b, hb⟩ := hfeed
      rw [fedBytes_cons_feed hb, hb]
      rfl
    · have hne := not_exists.mp hfeed
      rw [fedBytes_cons_of_ne hne, after_acc_of_ne hw hne]

/-- From INIT's `ACC` on, `ACC` and `crc_out` are those of the bytes fed (40_crc_commands.md R69). -/
theorem afterAll_crc {ws : List CmdWord} (hws : NoInit ws) {s : State} (hs : s.acc = Config.crcInit) :
    (afterAll ws s).acc = accOf (fedBytes ws) ∧ crcOut (afterAll ws s) = crc (fedBytes ws) := by
  have hacc : (afterAll ws s).acc = accOf (fedBytes ws) := by rw [afterAll_acc hws, hs]; rfl
  exact ⟨hacc, by rw [crcOut, hacc, crc_eq_accOf_xor]; rfl⟩

/-- Settles O44: INIT and reset both leave INIT's `ACC`, and `afterAll_crc` goes on from there. -/
theorem runningCrc : Obligations.RunningCrc := by
  unfold Obligations.RunningCrc
  intro ws s hws
  refine ⟨⟨_, issueAll_eq _ s, ?_⟩, ⟨_, issueAll_eq ws _, afterAll_crc hws (applyReset_acc s)⟩, by decide +kernel⟩
  exact afterAll_crc hws (startChecksum_acc s)

/-- A command that is neither INIT nor EXPECT keeps the field: `EXP`, its count and OVR (10_state.md R23 to R25). -/
theorem after_field_of_ne {i : Instr} (hinit : i ≠ .init) (hexpect : ∀ b, i ≠ .expect b) (s : State) :
    (after i s).exp = s.exp ∧ (after i s).expCnt = s.expCnt ∧ (after i s).ovr = s.ovr := by
  cases i with
  | init => exact absurd rfl hinit
  | expect b => exact absurd rfl (hexpect b)
  | check => simp [after_check_eq]
  | _ => exact ⟨rfl, rfl, rfl⟩

/-- Without an INIT, and while they fit, the bytes offered are shifted into `EXP` in order, counted, and cause no overrun
(40_crc_commands.md R73). -/
theorem afterAll_field {ws : List CmdWord} (hws : NoInit ws) {s : State}
    (hfit : s.expCnt.toNat + (offeredBytes ws).length ≤ 4) :
    (afterAll ws s).exp = (offeredBytes ws).foldl shiftInByte s.exp ∧
      (afterAll ws s).expCnt.toNat = s.expCnt.toNat + (offeredBytes ws).length ∧ (afterAll ws s).ovr = s.ovr := by
  induction ws generalizing s with
  | nil => exact ⟨rfl, rfl, rfl⟩
  | cons w ws ih =>
    obtain ⟨hw, hws⟩ := List.forall_mem_cons.mp hws
    rw [afterAll_cons]
    by_cases hexpect : ∃ b, decode w = .expect b
    · obtain ⟨b, hb⟩ := hexpect
      rw [offeredBytes_cons_expect hb, List.length_cons] at hfit ⊢
      have hnext := after_expect_short b (expCnt_ne_of_lt (s := s) (k := 4#3) (by omega) (by decide))
      have hcount : (after (.expect b) s).expCnt.toNat = s.expCnt.toNat + 1 := by
        rw [hnext]
        exact nextCount_toNat b (by omega)
      obtain ⟨hexp, hcnt, hovr⟩ := ih hws (s := after (.expect b) s) (by omega)
      rw [hb, hexp, hcnt, hovr, hcount, hnext]
      exact ⟨rfl, by omega, rfl⟩
    · have hne := not_exists.mp hexpect
      obtain ⟨hexp, hcnt, hovr⟩ := after_field_of_ne hw hne s
      rw [offeredBytes_cons_of_ne hne] at hfit ⊢
      rw [← hexp, ← hcnt, ← hovr]
      exact ih hws (by rwa [hcnt])

/-- Every command but a reserved one keeps ILL (60_exceptions.md R112). -/
theorem after_ill_of_ne {i : Instr} (hres : ∀ v, i ≠ .reserved v) (s : State) : (after i s).ill = s.ill := by
  cases i with
  | expect b =>
    obtain ⟨-, hill, -⟩ := after_expect_frame b s
    exact hill
  | check => simp [after_check_eq]
  | reserved v => exact absurd rfl (hres v)
  | _ => rfl

/-- A word that R54 does not list decodes to no reserved command. -/
theorem decode_ne_reserved {w : CmdWord} (h : isReserved w = false) (v : CmdWord) : decode w ≠ .reserved v := fun hd => by
  have hv : v = w := by rw [← encode_decode w, hd]; rfl
  rw [hv, decode_eq_reserved_iff, h] at hd
  exact Bool.noConfusion hd

theorem afterAll_ill {ws : List CmdWord} (hws : NoReserved ws) (s : State) : (afterAll ws s).ill = s.ill := by
  induction ws generalizing s with
  | nil => rfl
  | cons w ws ih =>
    obtain ⟨hw, hws⟩ := List.forall_mem_cons.mp hws
    rw [afterAll_cons, ih hws, after_ill_of_ne (decode_ne_reserved hw)]

/-- The host's reading of the status word, by the flags it shows (41_chunk_validation.md R97). -/
theorem readVerdict_statusOut (s : State) :
    readVerdict (statusOut s) =
      if s.ill then .hostFault
      else if s.matched then .valid
      else if s.ckerr then .checksumMismatch
      else if s.trunc then .truncatedInput
      else if s.done && s.ovr then .void
      else .unread := by
  simp [readVerdict]

/-- INIT and a dutiful sequence leave the crc of the fed bytes, and a full field of the offered bytes without an overrun
(70_reset_and_hazards.md R135). -/
theorem afterAll_dutiful {body : List CmdWord} (hduties : KeepsDuties body) (s : State) :
    crcOut (afterAll body (startChecksum s)) = crc (fedBytes body) ∧
      (afterAll body (startChecksum s)).exp = fieldValue (offeredBytes body) ∧
      (afterAll body (startChecksum s)).expCnt = 4#3 ∧ (afterAll body (startChecksum s)).ovr = false ∧
      (afterAll body (startChecksum s)).ill = s.ill := by
  obtain ⟨hinit, hres, hfour⟩ := hduties
  obtain ⟨hexp, hcnt, hovr⟩ := afterAll_field hinit (s := startChecksum s) (by simp [hfour])
  obtain ⟨-, hcrc⟩ := afterAll_crc hinit (startChecksum_acc s)
  refine ⟨hcrc, hexp, ?_, hovr, afterAll_ill hres _⟩
  exact BitVec.eq_of_toNat_eq (by simpa [hfour] using hcnt)

/-- The verdict of a CHECK of a full field without an overrun, as the host reads it where ILL is 0. -/
theorem readVerdict_after_check {s : State} (hfull : s.expCnt = 4#3) (hovr : s.ovr = false) (hill : s.ill = false) :
    readVerdict (statusOut (after .check s)) = if crcOut s = s.exp then .valid else .checksumMismatch := by
  rw [readVerdict_statusOut, after_check_of_full hfull hovr, hill]
  by_cases h : crcOut s = s.exp <;> simp [h]

/-- Settles O48: what the words before CHECK leave is `afterAll_dutiful`, and CHECK compares it (`after_check_of_full`). -/
theorem verdictForAnyDutifulOrder : Obligations.VerdictForAnyDutifulOrder := by
  unfold Obligations.VerdictForAnyDutifulOrder
  intro body s hill hduties
  obtain ⟨hcrc, hexp, hfull, hovr, hkeep⟩ := afterAll_dutiful hduties s
  refine ⟨after .check (afterAll body (startChecksum s)), ?_, ?_⟩
  · rw [issueAll_eq, afterAll_init_cons, afterAll_append]
    rfl
  · rw [readVerdict_after_check hfull hovr (hkeep.trans hill), after_check_of_full hfull hovr, ← hcrc, ← hexp]
    exact ⟨rfl, rfl, rfl, rfl, hovr, hkeep.trans hill, rfl, rfl, rfl⟩

end Sys2Proof.Machine
end

section
/-!
PROOFS, 41_chunk_validation.md R97, R101: the verdict a CHECK leaves is true of the present `ACC` and `EXP`, stays so, and is
what the host reads.
-/
namespace Sys2Proof.Machine

open Sys2Proof.Safety

/-- A cleared verdict claims nothing of `ACC` and `EXP`. -/
theorem verdictInv_clearVerdict {s : State} (hle : s.expCnt.toNat ≤ 4) (hovr : s.ovr = true → s.expCnt = 4#3) :
    VerdictInv (clearVerdict s) where
  count_le := hle
  ovr_full := hovr
  matched_iff := by simp
  ckerr_iff := by simp
  trunc_iff := by simp

/-- CHECK writes the three flags from the `ACC` and `EXP` it keeps. -/
theorem verdictInv_after_check {s : State} (hle : s.expCnt.toNat ≤ 4) (hovr : s.ovr = true → s.expCnt = 4#3) :
    VerdictInv (after .check s) := by
  rw [after_check_eq]
  exact {
    count_le := hle
    ovr_full := hovr
    matched_iff := (matchCond_iff s).trans (by simp [and_assoc, crcOut])
    ckerr_iff := (mismatchCond_iff s).trans (by simp [and_assoc, crcOut])
    trunc_iff := (truncCond_iff s).trans (by simp) }

theorem verdictInv_after (i : Instr) {s : State} (h : VerdictInv s) : VerdictInv (after i s) := by
  have hle := after_expCnt_le i h.count_le
  cases i with
  | nop => exact h
  | init => exact verdictInv_clearVerdict (s := startChecksum s) (by simp) (by simp)
  | feed b => exact verdictInv_clearVerdict hle h.ovr_full
  | expect b =>
    rcases after_expect_cases b s with ⟨hfull, heq⟩ | ⟨hshort, heq⟩ <;> rw [heq] at hle ⊢
    · exact verdictInv_clearVerdict hle fun _ => hfull
    · exact verdictInv_clearVerdict hle fun hovr => absurd (h.ovr_full hovr) hshort
  | check => exact verdictInv_after_check h.count_le h.ovr_full
  | reserved w =>
    obtain ⟨-, hovr, hmatched, hckerr, htrunc⟩ := h
    exact ⟨hle, hovr, hmatched, hckerr, htrunc⟩

/-- Settles O38: what changes `ACC` or `EXP` clears the verdict, and CHECK alone writes one. -/
theorem stepKeepsTheVerdictFresh : Obligations.StepKeepsTheVerdictFresh := by
  unfold Obligations.StepKeepsTheVerdictFresh
  refine fun s t => step_keeps verdictInv_applyReset (fun u l hu => ?_) fun i u => verdictInv_after i
  obtain ⟨hle, hovr, hmatched, hckerr, htrunc⟩ := hu
  exact ⟨hle, hovr, hmatched, hckerr, htrunc⟩

/-- CHECK of a state with R26's invariants has a verdict flag to show, or the field has overrun (60_exceptions.md R113). -/
theorem after_check_outcome {s : State} (hle : s.expCnt.toNat ≤ 4) :
    (after .check s).matched = true ∨ (after .check s).ckerr = true ∨ (after .check s).trunc = true ∨
      (after .check s).ovr = true := by
  by_cases hfull : s.expCnt = 4#3
  · cases hovr : s.ovr with
    | false =>
      rw [after_check_of_full hfull hovr]
      by_cases heq : crcOut s = s.exp <;> simp [heq]
    | true => simp [after_check_eq, hovr]
  · have htrunc := (truncCond_iff s).mpr (expCnt_lt_of_ne hle hfull)
    simp [after_check_eq, htrunc]

/-- Settles O36: the rows of R97's table are read in order, and R26 (a) makes that order immaterial. -/
theorem hostReadsTheVerdict : Obligations.HostReadsTheVerdict := by
  unfold Obligations.HostReadsTheVerdict
  intro s hs
  have houtcome := after_check_outcome hs.count_le
  obtain ⟨hmc, hmt, hct, -, -, -⟩ := flagsInv_after .check hs
  obtain ⟨hdone, -⟩ := after_check_flags s
  refine ⟨_, exec_eq_after .check s, ?_⟩
  rw [readVerdict_statusOut]
  generalize after .check s = t at *
  split_ifs with hill hmatched hckerr htrunc hvoid
  · simp [hill]
  · simp [hill, hmatched, not_and.mp hmc hmatched, not_and.mp hmt hmatched]
  · simp [hill, hmatched, hckerr, not_and.mp hct hckerr]
  · simp [hill, hmatched, hckerr, htrunc]
  · have hovr : t.ovr = true := by simpa [hdone] using hvoid
    simp [hill, hmatched, hckerr, htrunc, hdone, hovr]
  · have hovr : ¬ t.ovr = true := by simpa [hdone] using hvoid
    simp [hmatched, hckerr, htrunc, hovr] at houtcome

end Sys2Proof.Machine
end

section
/-!
PROOFS, 41_chunk_validation.md R92, R95, R100, R104: what GENERATE and VERIFY leave; that no single flipped bit passes, from the
injectivity of the datapath; and that INIT forgets all but ILL.
-/
namespace Sys2Proof.Machine

/-! ### GENERATE and VERIFY -/

theorem feeds_append (m n : List Byte) : feeds (m ++ n) = feeds m ++ feeds n := List.map_append

/-- GENERATE leaves INIT's state but for the `ACC` of type and data (41_chunk_validation.md R92). -/
theorem afterAll_generateWords (tag data : List Byte) (s : State) :
    afterAll (generateWords tag data) s = { startChecksum s with acc := accOf (tag ++ data) } := by
  rw [generateWords, ← feeds_append, afterAll_init_cons]
  exact afterAll_feeds _ rfl rfl rfl rfl

/-- Where `ACC` is that of a stream, `crc_out` is the stream's crc (10_state.md R29). -/
theorem crcOut_of_acc {m : List Byte} {s : State} (h : s.acc = accOf m) : crcOut s = crc m := by
  rw [crc_eq_accOf_xor, crcOut, h]
  rfl

theorem crcOut_afterAll_generateWords (tag data : List Byte) (s : State) :
    crcOut (afterAll (generateWords tag data) s) = crc (tag ++ data) :=
  crcOut_of_acc (by rw [afterAll_generateWords])

theorem construct_eq (tag data : List Byte) (s : State) :
    construct tag data s =
      .next (afterAll (generateWords tag data) s,
        { length := BitVec.ofNat 32 data.length, tag := tag, data := data, crc := crc (tag ++ data) }) := by
  rw [construct, issueAll_eq, ← crcOut_afterAll_generateWords tag data s]

/-- Settles O45: INIT clears every flag it may, and FEEDs change `ACC` alone. -/
theorem generateGivesTheChunkCrc : Obligations.GenerateGivesTheChunkCrc := by
  unfold Obligations.GenerateGivesTheChunkCrc
  intro tag data s
  refine ⟨_, issueAll_eq _ s, crcOut_afterAll_generateWords tag data s, ?_⟩
  rw [construct_eq, afterAll_generateWords]
  exact ⟨rfl, rfl, rfl, rfl, rfl, rfl, rfl, rfl⟩

/-- VERIFY's whole effect, from any state: the crc of the stream against the given value (41_chunk_validation.md R95). -/
theorem afterAll_verifyWords_eq (m : List Byte) (v : Word32) (s : State) :
    afterAll (verifyWords m v) s =
      { startChecksum s with acc := accOf m, exp := v, expCnt := 4#3, done := true, matched := decide (crc m = v),
                             ckerr := !decide (crc m = v) } := by
  rw [afterAll_verifyWords, after_check_of_full rfl rfl, crcOut_of_acc rfl]
  rfl

theorem readVerdict_afterAll_verifyWords (m : List Byte) (v : Word32) {s : State} (hill : s.ill = false) :
    readVerdict (statusOut (afterAll (verifyWords m v) s)) = if crc m = v then .valid else .checksumMismatch := by
  have hcrc := crcOut_of_acc (m := m) (s := { startChecksum s with acc := accOf m, exp := v, expCnt := 4#3 }) rfl
  rw [afterAll_verifyWords, ← hcrc]
  exact readVerdict_after_check rfl rfl hill

/-! ### A wrong crc, and the bits that make one (41_chunk_validation.md R100) -/

/-- VERIFY against any value but the stream's crc ends in `ChecksumMismatch`. -/
theorem issueAll_verifyWords_of_ne {m : List Byte} {v : Word32} (hne : crc m ≠ v) (s : State) :
    ∃ t : State, issueAll (verifyWords m v) s = .next t ∧ t.ckerr = true ∧ t.matched = false ∧
      (s.ill = false → readVerdict (statusOut t) = .checksumMismatch) := by
  refine ⟨_, issueAll_eq _ s, ?_, ?_, fun hill => ?_⟩
  · simp [afterAll_verifyWords_eq, hne]
  · simp [afterAll_verifyWords_eq, hne]
  · rw [readVerdict_afterAll_verifyWords m v hill, if_neg hne]

/-- A flipped bit makes another value. -/
theorem ne_xor_bit {n k : Nat} (hk : k < n) (v : BitVec n) : v ≠ v ^^^ (1#n <<< k) := by
  intro h
  have hbit := congrArg (fun x : BitVec n => x.getLsbD k) h
  simp [hk] at hbit

/-- Settles O50: the value with a bit flipped is not the crc. -/
theorem flippedCrcFieldBitIsCaught : Obligations.FlippedCrcFieldBitIsCaught := by
  unfold Obligations.FlippedCrcFieldBitIsCaught
  exact fun m k s hk => issueAll_verifyWords_of_ne (ne_xor_bit hk _) s

theorem crcStep_injective_acc (b : Byte) : Function.Injective fun acc => crcStep acc b := fun _ _ h =>
  (BitVec.xor_left_inj _).mp (reflectedShift_injective.iterate 8 h)

theorem crcStep_injective_byte (acc : Word32) : Function.Injective (crcStep acc) := fun b c h => by
  have hwide : b.setWidth 32 = c.setWidth 32 := (BitVec.xor_right_inj _).mp (reflectedShift_injective.iterate 8 h)
  bv_omega

/-- The bytes that follow never bring two different `ACC`s together. -/
theorem foldl_crcStep_injective (m : List Byte) : Function.Injective fun acc => m.foldl crcStep acc := by
  induction m with
  | nil => exact Function.injective_id
  | cons b m ih => exact ih.comp (crcStep_injective_acc b)

/-- Two streams that differ in one byte have different crcs (40_crc_commands.md R66). -/
theorem crc_ne_of_byte_ne {b c : Byte} (hne : b ≠ c) (p q : List Byte) : crc (p ++ b :: q) ≠ crc (p ++ c :: q) := by
  intro h
  rw [crc_eq_accOf_xor, crc_eq_accOf_xor, accOf_append, accOf_append] at h
  have hstep : crcStep (accOf p) b = crcStep (accOf p) c := foldl_crcStep_injective q ((BitVec.xor_left_inj _).mp h)
  exact hne (crcStep_injective_byte _ hstep)

/-- Settles O51: the byte with a bit flipped is another byte, so the crcs differ. -/
theorem flippedStreamBitIsCaught : Obligations.FlippedStreamBitIsCaught := by
  unfold Obligations.FlippedStreamBitIsCaught
  exact fun p q b k s hk => issueAll_verifyWords_of_ne (crc_ne_of_byte_ne (ne_xor_bit hk b).symm p q) s

/-! ### What INIT forgets (41_chunk_validation.md R104) -/

/-- INIT writes every element but ILL (40_crc_commands.md R71). -/
theorem startChecksum_congr {s t : State} (hill : s.ill = t.ill) (hinput : s.input = t.input) :
    startChecksum s = startChecksum t :=
  state_eq rfl rfl rfl rfl rfl rfl rfl rfl hill hinput

/-- Settles O52: after the INIT the two states are one. -/
theorem onlyIllSurvivesInit : Obligations.OnlyIllSurvivesInit := by
  unfold Obligations.OnlyIllSurvivesInit
  intro ws s1 s2 hill hinput
  rw [issueAll_eq, issueAll_eq, afterAll_init_cons, afterAll_init_cons, startChecksum_congr hill hinput]

end Sys2Proof.Machine
end

section
/-!
PROOFS, 41_chunk_validation.md R93 to R96, R99, R104: the encoded chunk, its parse and round trip, and a file of chunks.
-/
namespace Sys2Proof.Machine

/-! ### The layout (41_chunk_validation.md R93, R94) -/

theorem length_bytesBE (v : Word32) : (bytesBE v).length = 4 := rfl

theorem length_serialize {c : Chunk} (htag : c.tag.length = 4) : (serialize c).length = 12 + c.data.length := by
  simp only [serialize, List.length_append, length_bytesBE, htag]
  omega

/-- Settles O46: the fields in front of each have the lengths 4, 4 and n. -/
theorem encodedChunkLayout : Obligations.EncodedChunkLayout := by
  unfold Obligations.EncodedChunkLayout
  intro c htag
  have hafterLength : (serialize c).drop 4 = c.tag ++ (c.data ++ bytesBE c.crc) := by
    simp [serialize, bytesBE]
  have hafterTag : (serialize c).drop 8 = c.data ++ bytesBE c.crc := by
    rw [show 8 = 4 + 4 from rfl, ← List.drop_drop, hafterLength, List.drop_left' htag]
  refine ⟨length_serialize htag, rfl, ?_, ?_, ?_⟩
  · rw [hafterLength, List.take_left' htag]
  · rw [hafterTag, List.take_left]
  · rw [← List.drop_drop, hafterTag, List.drop_left]
    rfl

/-! ### Parsing an encoded chunk (41_chunk_validation.md R95, R96, R99) -/

/-- What the host's part of `parse` asks of a chunk; its crc may be wrong (41_chunk_validation.md R96, 60_exceptions.md R114). -/
structure WellFramed (c : Chunk) : Prop where
  tag_length : c.tag.length = 4
  tag_letters : c.tag.all isTagByte = true
  length_eq : c.length.toNat = c.data.length

theorem wordBE_bytes (v : Word32) :
    wordBE (v.extractLsb' 24 8) (v.extractLsb' 16 8) (v.extractLsb' 8 8) (v.extractLsb' 0 8) = v := append_bytes v

/-- The host slices an encoded chunk into the fields it was made of, whatever follows it. -/
theorem frameChunk_serialize {c : Chunk} (hc : WellFramed c) (rest : List Byte) :
    frameChunk (serialize c ++ rest) = .ok (c, rest) := by
  obtain ⟨len, tag, data, crc⟩ := c
  obtain ⟨htag, hletters, hlen⟩ := hc
  obtain ⟨t0, t1, t2, t3, rfl⟩ := List.length_eq_four.mp htag
  simp only [List.all_cons, List.all_nil, Bool.and_true, Bool.and_eq_true] at hletters
  obtain ⟨h0, h1, h2, h3⟩ := hletters
  have hlen : len.toNat = data.length := hlen
  simp [frameChunk, serialize, bytesBE, wordBE_bytes, hlen, h0, h1, h2, h3]

theorem verifyChunk_eq (c : Chunk) {s : State} (hill : s.ill = false) :
    verifyChunk c s =
      .next (afterAll (verifyWords (c.tag ++ c.data) c.crc) s,
        if crc (c.tag ++ c.data) = c.crc then .valid else .checksumMismatch) := by
  rw [verifyChunk, issueAll_eq, ← readVerdict_afterAll_verifyWords _ _ hill]

/-- `parse` of a well-framed chunk answers by its crc alone, and hands on the bytes after the chunk. -/
theorem parseChunk_serialize {c : Chunk} (hc : WellFramed c) (rest : List Byte) {s : State} (hill : s.ill = false) :
    parseChunk (serialize c ++ rest) s =
      .next (afterAll (verifyWords (c.tag ++ c.data) c.crc) s,
        if crc (c.tag ++ c.data) = c.crc then .ok (c, rest) else .error .checksumMismatch) := by
  simp only [parseChunk, frameChunk_serialize hc, verifyChunk_eq c hill]
  by_cases hcrc : crc (c.tag ++ c.data) = c.crc <;> simp only [hcrc, if_true, if_false] <;> rfl

/-- VERIFY contains no reserved word, so it keeps ILL. -/
theorem afterAll_verifyWords_ill (m : List Byte) (v : Word32) (s : State) :
    (afterAll (verifyWords m v) s).ill = s.ill := by
  rw [afterAll_verifyWords_eq]
  rfl

theorem chunkValid_iff (c : Chunk) :
    chunkValid c = true ↔
      c.tag.length = 4 ∧ c.crc = crc (c.tag ++ c.data) ∧ c.length.toNat = c.data.length := by
  simp [chunkValid, and_assoc]

/-- `parse` of a chunk value with a type of letters gives the chunk back. -/
theorem parseChunk_of_chunkValid {c : Chunk} (hvalid : chunkValid c = true) (hletters : c.tag.all isTagByte = true)
    (rest : List Byte) {s : State} (hill : s.ill = false) :
    parseChunk (serialize c ++ rest) s = .next (afterAll (verifyWords (c.tag ++ c.data) c.crc) s, .ok (c, rest)) := by
  obtain ⟨htag, hcrc, hlen⟩ := (chunkValid_iff c).mp hvalid
  rw [parseChunk_serialize ⟨htag, hletters, hlen⟩ rest hill, if_pos hcrc.symm]

/-- Settles O49: what GENERATE gives is a chunk value, so the VERIFY of its encoding matches. -/
theorem chunkRoundTrip : Obligations.ChunkRoundTrip := by
  unfold Obligations.ChunkRoundTrip
  intro tag data s htag hletters hsize hill
  have hlen : (BitVec.ofNat 32 data.length).toNat = data.length := by
    rw [BitVec.toNat_ofNat, Nat.mod_eq_of_lt hsize]
  have hvalid := (chunkValid_iff ⟨BitVec.ofNat 32 data.length, tag, data, crc (tag ++ data)⟩).mpr ⟨htag, rfl, hlen⟩
  have hkeep : (afterAll (generateWords tag data) s).ill = false := by
    rw [afterAll_generateWords]
    exact hill
  have hparse := parseChunk_of_chunkValid hvalid hletters [] hkeep
  rw [List.append_nil] at hparse
  refine ⟨_, _, _, construct_eq tag data s, hlen, rfl, rfl, rfl, hvalid, hparse, ?_⟩
  simp [afterAll_verifyWords_eq, hkeep]

/-! ### A file of chunks (41_chunk_validation.md R104) -/

theorem isEmpty_serialize_append (c : Chunk) (rest : List Byte) : (serialize c ++ rest).isEmpty = false := rfl

/-- A chunk that parses goes in front of what the rest of the buffer parses to. -/
theorem parseChunks_of_ok {buf rest : List Byte} {s t u : State} {c : Chunk} {fuel : Nat}
    {r : Except ParseError (List Chunk)} (hne : buf.isEmpty = false) (hchunk : parseChunk buf s = .next (t, .ok (c, rest)))
    (hrest : parseChunks fuel rest t = .next (u, r)) : parseChunks (fuel + 1) buf s = .next (u, r.map (c :: ·)) := by
  simp only [parseChunks, hne, hchunk, hrest]
  cases r <;> rfl

/-- The first chunk that fails is the parse's failure. -/
theorem parseChunks_of_error {buf : List Byte} {s t : State} {e : ParseError} (hne : buf.isEmpty = false)
    (hchunk : parseChunk buf s = .next (t, .error e)) (fuel : Nat) :
    parseChunks (fuel + 1) buf s = .next (t, .error e) := by
  simp only [parseChunks, hne, hchunk]
  rfl

theorem parseChunks_nil (fuel : Nat) (s : State) : parseChunks fuel [] s = .next (s, .ok []) := by
  cases fuel <;> rfl

/-- Valid chunks in front of `tail` parse to themselves, in order, and the parse goes on at `tail`. -/
theorem parseChunks_append {cs : List Chunk} (hcs : ∀ c ∈ cs, chunkValid c = true ∧ c.tag.all isTagByte = true)
    {fuel : Nat} {tail : List Byte} {r : Except ParseError (List Chunk)}
    (htail : ∀ t : State, t.ill = false → ∃ u : State, parseChunks fuel tail t = .next (u, r))
    {s : State} (hill : s.ill = false) :
    ∃ u : State, parseChunks (fuel + cs.length) (cs.flatMap serialize ++ tail) s = .next (u, r.map (cs ++ ·)) := by
  induction cs generalizing s with
  | nil =>
    obtain ⟨u, hu⟩ := htail s hill
    refine ⟨u, hu.trans ?_⟩
    cases r <;> rfl
  | cons c cs ih =>
    obtain ⟨⟨hvalid, hletters⟩, hcs⟩ := List.forall_mem_cons.mp hcs
    have hchunk := parseChunk_of_chunkValid hvalid hletters (cs.flatMap serialize ++ tail) hill
    obtain ⟨u, hu⟩ := ih hcs ((afterAll_verifyWords_ill _ _ s).trans hill)
    rw [List.flatMap_cons, List.append_assoc, List.length_cons, ← Nat.add_assoc,
      parseChunks_of_ok (isEmpty_serialize_append c _) hchunk hu]
    exact ⟨u, by cases r <;> rfl⟩

/-- Each chunk takes at least one byte. -/
theorem length_le_length_flatMap_serialize (cs : List Chunk) : cs.length ≤ (cs.flatMap serialize).length := by
  have hone : ∀ n ∈ cs.map fun c => (serialize c).length, 1 ≤ n := by
    simp [serialize, bytesBE]
  simpa [List.length_flatMap] using List.length_le_sum_of_one_le _ hone

/-- The length of the buffer is fuel for its chunks, and for at least as many more as its tail has bytes. -/
theorem parseFile_append {cs : List Chunk} (hcs : ∀ c ∈ cs, chunkValid c = true ∧ c.tag.all isTagByte = true)
    {tail : List Byte} {r : Except ParseError (List Chunk)}
    (htail : ∀ (fuel : Nat) (t : State), tail.length ≤ fuel → t.ill = false →
      ∃ u : State, parseChunks fuel tail t = .next (u, r))
    {s : State} (hill : s.ill = false) :
    ∃ u : State, parseFile (cs.flatMap serialize ++ tail) s = .next (u, r.map (cs ++ ·)) := by
  have hlen := length_le_length_flatMap_serialize cs
  obtain ⟨extra, hextra⟩ := Nat.exists_eq_add_of_le' hlen
  rw [parseFile, List.length_append, hextra, Nat.add_right_comm]
  exact parseChunks_append hcs (fun t => htail _ t (Nat.le_add_left _ _)) hill

/-- A well-framed chunk with a wrong crc fails the parse, whatever follows it. -/
theorem parseChunks_of_crc_ne {c : Chunk} (hc : WellFramed c) (hcrc : c.crc ≠ crc (c.tag ++ c.data)) (rest : List Byte)
    {fuel : Nat} (hfuel : 0 < fuel) {s : State} (hill : s.ill = false) :
    ∃ u : State, parseChunks fuel (serialize c ++ rest) s = .next (u, .error .checksumMismatch) := by
  obtain ⟨fuel, rfl⟩ := Nat.exists_eq_succ_of_ne_zero hfuel.ne'
  have hchunk := parseChunk_serialize hc rest hill
  rw [if_neg hcrc.symm] at hchunk
  exact ⟨_, parseChunks_of_error (isEmpty_serialize_append c rest) hchunk fuel⟩

/-- Settles O53: the chunks parse up to the tail, which is empty or begins with the wrong chunk. -/
theorem fileOfChunksParses : Obligations.FileOfChunksParses := by
  unfold Obligations.FileOfChunksParses
  intro cs s hcs hill
  constructor
  · have hfile := parseFile_append hcs (tail := []) (r := .ok []) (fun fuel t _ _ => ⟨t, parseChunks_nil fuel t⟩) hill
    simpa [Except.map] using hfile
  · intro c rest htag hletters hlen hcrc
    rw [List.append_assoc]
    refine parseFile_append hcs (r := .error .checksumMismatch) (fun fuel t hfuel ht => ?_) hill
    refine parseChunks_of_crc_ne ⟨htag, hletters, hlen⟩ hcrc rest (lt_of_lt_of_le ?_ hfuel) ht
    exact Nat.succ_pos _

end Sys2Proof.Machine
end

section
/-!
PROOFS, 60_exceptions.md R110 to R113, R115: every command completes; what raising an exception shows in `status_out`; the
verdict of one CHECK; at most one exception per command; and ILL is sticky.
-/
namespace Sys2Proof.Machine

open Sys2Proof.Safety

/-- Settles O11: `after` is the next state, and it keeps the stream. -/
theorem everyCommandCompletes : Obligations.EveryCommandCompletes := by
  unfold Obligations.EveryCommandCompletes
  exact fun i s => ⟨after i s, exec_eq_after i s, after_input i s⟩

/-! ### Raising an exception (60_exceptions.md R110, R111) -/

/-- The word with the bit of one cause code alone, laid out as `status_out` (10_state.md R29). -/
theorem shiftLeft_causeCode (e : Exc) :
    1#16 <<< causeCode e =
      0#5 ++ 0#3 ++ 0#2 ++ BitVec.ofBool (e = .illegalCommand) ++ BitVec.ofBool (e = .expectOverrun) ++
        BitVec.ofBool (e = .truncatedInput) ++ BitVec.ofBool (e = .checksumMismatch) ++ BitVec.ofBool false ++
        BitVec.ofBool false := by
  cases e <;> decide

/-- Raising an exception puts the bit at its cause code into `status_out` (60_exceptions.md R111, 00_scope.md R8). -/
theorem statusOut_raise (e : Exc) (s : State) : statusOut (raise e s) = statusOut s ||| (1#16 <<< causeCode e) := by
  have field : 0#5 ++ s.expCnt ++ 0#2 ||| 0#5 ++ 0#3 ++ 0#2 = 0#5 ++ s.expCnt ++ 0#2 := BitVec.or_zero
  rw [shiftLeft_causeCode, statusOut, statusOut]
  simp only [BitVec.or_append (y₂ := BitVec.ofBool _), BitVec.ofBool_or_ofBool, field]
  cases e <;> simp [raise]

/-- No exception shows in the other outputs or in the stream (60_exceptions.md R110). -/
theorem raise_frame (e : Exc) (s : State) :
    crcOut (raise e s) = crcOut s ∧ expOut (raise e s) = expOut s ∧ (raise e s).input = s.input := by
  cases e <;> exact ⟨rfl, rfl, rfl⟩

/-- Settles O32: the status bit is `statusOut_raise`, the rest of the outputs `raise_frame`. -/
theorem raisingSetsOneStatusBit : Obligations.RaisingSetsOneStatusBit := by
  unfold Obligations.RaisingSetsOneStatusBit
  intro e s
  obtain ⟨hcrc, hexp, hinput⟩ := raise_frame e s
  exact ⟨statusOut_raise e s, hcrc, hexp, hinput, rfl, rfl, rfl, rfl, rfl, rfl, rfl, rfl⟩

/-! ### One CHECK, one verdict (60_exceptions.md R113) -/

/-- A short field is not compared (40_crc_commands.md R74). -/
theorem comparable_of_truncCond {s : State} (h : truncCond s = true) : comparable s = false := by
  have hne : s.expCnt ≠ 4#3 := expCnt_ne_of_lt ((truncCond_iff s).mp h) (by decide)
  exact Bool.eq_false_iff.mpr fun hc => hne ((comparable_iff s).mp hc).left

/-- CHECK where the comparison does not count: DONE, and TRUNC if the field is short, are all it sets. -/
theorem after_check_of_not_comparable {s : State} (h : comparable s = false) :
    after .check s = { s with done := true, matched := false, ckerr := false, trunc := truncCond s } := by
  simp [after_check_eq, matchCond, mismatchCond, h]

/-- CHECK of a short field gives TRUNC alone, whatever OVR is. -/
theorem after_check_of_short {s : State} (h : s.expCnt.toNat < 4) :
    after .check s = { s with done := true, matched := false, ckerr := false, trunc := true } := by
  have htrunc := (truncCond_iff s).mpr h
  rw [after_check_of_not_comparable (comparable_of_truncCond htrunc), htrunc]

/-- CHECK after an overrun of a field that is not short gives no verdict. -/
theorem after_check_of_overrun {s : State} (h : ¬ s.expCnt.toNat < 4) (hovr : s.ovr = true) :
    after .check s = { s with done := true, matched := false, ckerr := false, trunc := false } := by
  have htrunc : truncCond s = false := Bool.eq_false_iff.mpr (mt (truncCond_iff s).mp h)
  rw [after_check_of_not_comparable (by simp [comparable, hovr]), htrunc]

/-- ILL takes no part in CHECK. -/
theorem after_check_with_ill (s : State) (b : Bool) :
    after .check { s with ill := b } = { after .check s with ill := b } := by
  rw [after_check_eq, after_check_eq]
  rfl

/-- Settles O33: one equation of CHECK per case of R113. -/
theorem checkVerdictPriority : Obligations.CheckVerdictPriority := by
  unfold Obligations.CheckVerdictPriority
  intro s hs
  obtain ⟨hdone, -⟩ := after_check_flags s
  refine ⟨after .check s, exec_eq_after .check s, hdone, ?_, fun hshort => ?_, fun hfull hovr => ?_,
    fun hfull hovr => ?_, fun b => ?_⟩
  · rintro ⟨hshort, hovr⟩
    exact expCnt_ne_of_lt hshort (by decide) (hs.ovr_full hovr)
  · rw [after_check_of_short hshort]
    exact ⟨rfl, rfl, rfl⟩
  · rw [after_check_of_overrun hfull hovr]
    exact ⟨rfl, rfl, rfl⟩
  · have hfour : s.expCnt = 4#3 := by_contra fun hne => hfull (expCnt_lt_of_ne hs.count_le hne)
    rw [after_check_of_full hfour hovr]
    exact ⟨rfl, rfl, rfl⟩
  · rw [exec_eq_after, after_check_with_ill]

/-! ### At most one exception per command (60_exceptions.md R115) -/

/-- CHECK's two exceptions exclude each other: a mismatch is of a field that counts, a truncation of one that does not. -/
theorem mismatchCond_of_truncCond {s : State} (h : truncCond s = true) : mismatchCond s = false := by
  rw [mismatchCond, comparable_of_truncCond h, Bool.false_and]

/-- Settles O34: a flag that is kept or cleared does not rise. That leaves OVR for EXPECT, ILL for a reserved word, and for
CHECK one of CKERR and TRUNC. -/
theorem atMostOneExceptionPerCommand : Obligations.AtMostOneExceptionPerCommand := by
  unfold Obligations.AtMostOneExceptionPerCommand
  intro i s t h
  rw [exec_next_iff.mp h]
  cases i with
  | nop => simp [after]
  | init => simp [after]
  | feed b => simp [after]
  | expect b =>
    obtain ⟨-, -, hckerr, htrunc, -, hill⟩ := after_expect_flags b s
    simpa [hckerr, htrunc, hill] using Bool.toNat_le _
  | check =>
    rw [after_check_eq]
    cases ht : truncCond s with
    | true => simpa [mismatchCond_of_truncCond ht] using Bool.toNat_le _
    | false => simpa using Bool.toNat_le _
  | reserved w => simpa [after] using Bool.toNat_le _

/-! ### ILL is sticky (60_exceptions.md R112) -/

/-- A reserved word sets ILL, and every other word keeps it. -/
theorem after_decode_ill (w : CmdWord) (s : State) : (after (decode w) s).ill = (s.ill || isReserved w) := by
  cases h : isReserved w with
  | true =>
    rw [(decode_eq_reserved_iff w).mpr h, Bool.or_true]
    rfl
  | false => rw [after_ill_of_ne (decode_ne_reserved h), Bool.or_false]

/-- ILL after a sequence of words: it was 1, or one of them was reserved. -/
theorem afterAll_ill_eq (ws : List CmdWord) (s : State) : (afterAll ws s).ill = (s.ill || ws.any isReserved) := by
  induction ws generalizing s with
  | nil => exact (Bool.or_false _).symm
  | cons w ws ih => rw [afterAll_cons, ih, after_decode_ill, List.any_cons, Bool.or_assoc]

/-- Settles O35: `afterAll_ill_eq`, and a reset clears ILL. -/
theorem illIsSticky : Obligations.IllIsSticky := by
  unfold Obligations.IllIsSticky
  refine ⟨fun ws s => ⟨_, issueAll_eq ws s, ?_⟩, ?_⟩
  · rw [afterAll_ill_eq, Bool.or_eq_true, List.any_eq_true]
  · rintro ws s ⟨s0, rfl⟩
    refine ⟨_, issueAll_eq ws _, ?_⟩
    rw [afterAll_ill_eq, applyReset_ill, Bool.false_or, List.any_eq_false]
    simp [NoReserved]

end Sys2Proof.Machine
end

section
/-!
PROOFS, 60_exceptions.md R114: the host's part of `parse` on any buffer. It fails in the rule's order, and otherwise the
buffer is an encoded chunk followed by the bytes after it (41_chunk_validation.md R93, R96).
-/
namespace Sys2Proof.Machine

/-- The big-endian value of the first four bytes (20_memory.md R43). -/
def firstWord (m : List Byte) : Word32 := wordBE (m.getD 0 0) (m.getD 1 0) (m.getD 2 0) (m.getD 3 0)

/-- The type bytes of a buffer, at R93's offset. -/
def tagField (buf : List Byte) : List Byte := (buf.drop 4).take 4

/-- The chunk whose fields stand in a buffer at R93's offsets. -/
def slicedChunk (buf : List Byte) : Chunk where
  length := firstWord buf
  tag := tagField buf
  data := (buf.drop 8).take (firstWord buf).toNat
  crc := firstWord (buf.drop (8 + (firstWord buf).toNat))

theorem exists_eq_cons_four {m : List Byte} (h : 4 ≤ m.length) : ∃ b0 b1 b2 b3 rest, m = b0 :: b1 :: b2 :: b3 :: rest :=
  match m, h with
  | b0 :: b1 :: b2 :: b3 :: rest, _ => ⟨b0, b1, b2, b3, rest, rfl⟩

/-- A buffer that holds the length and the type, byte by byte. -/
theorem exists_eq_header_append {buf : List Byte} (h : 8 ≤ buf.length) :
    ∃ l0 l1 l2 l3 t0 t1 t2 t3 body, buf = l0 :: l1 :: l2 :: l3 :: t0 :: t1 :: t2 :: t3 :: body := by
  obtain ⟨l0, l1, l2, l3, rest, rfl⟩ := exists_eq_cons_four (m := buf) (by omega)
  obtain ⟨t0, t1, t2, t3, body, rfl⟩ := exists_eq_cons_four (m := rest) (by simpa using h)
  exact ⟨l0, l1, l2, l3, t0, t1, t2, t3, body, rfl⟩

/-- The four bytes of a value made of four bytes are those bytes. -/
theorem bytesBE_wordBE (b0 b1 b2 b3 : Byte) : bytesBE (wordBE b0 b1 b2 b3) = [b0, b1, b2, b3] := by
  have h0 := b0.isLt
  have h1 := b1.isLt
  have h2 := b2.isLt
  have h3 := b3.isLt
  simp only [bytesBE, List.cons.injEq, and_true]
  refine ⟨?_, ?_, ?_, ?_⟩ <;>
    (apply BitVec.eq_of_toNat_eq
     simp only [wordBE, BitVec.extractLsb'_toNat, toNat_append_byte, Nat.shiftRight_eq_div_pow]
     omega)

theorem bytesBE_firstWord {m : List Byte} (h : 4 ≤ m.length) : bytesBE (firstWord m) = m.take 4 := by
  obtain ⟨b0, b1, b2, b3, rest, rfl⟩ := exists_eq_cons_four h
  exact bytesBE_wordBE b0 b1 b2 b3

/-- R114, first: a buffer too short for length and type. -/
theorem frameChunk_of_no_header {buf : List Byte} (h : buf.length < 8) : frameChunk buf = .error .truncatedInput := by
  unfold frameChunk
  split
  · simp only [List.length_cons] at h
    omega
  · rfl

/-- R114, second: a type byte that is no letter. -/
theorem frameChunk_of_bad_tag {buf : List Byte} (h : 8 ≤ buf.length) (htag : (tagField buf).all isTagByte = false) :
    frameChunk buf = .error .invalidTag := by
  obtain ⟨l0, l1, l2, l3, t0, t1, t2, t3, body, rfl⟩ := exists_eq_header_append h
  have hletters : (isTagByte t0 && isTagByte t1 && isTagByte t2 && isTagByte t3) = false := by
    simpa [tagField, Bool.and_assoc] using htag
  rw [frameChunk, hletters]
  rfl

/-- R114, third: a buffer too short for data and crc. -/
theorem frameChunk_of_no_crc {buf : List Byte} (h : 8 ≤ buf.length) (htag : (tagField buf).all isTagByte = true)
    (hshort : buf.length < 8 + (firstWord buf).toNat + 4) : frameChunk buf = .error .truncatedInput := by
  obtain ⟨l0, l1, l2, l3, t0, t1, t2, t3, body, rfl⟩ := exists_eq_header_append h
  have hletters : (isTagByte t0 && isTagByte t1 && isTagByte t2 && isTagByte t3) = true := by
    simpa [tagField, Bool.and_assoc] using htag
  have hbody : (body.drop (wordBE l0 l1 l2 l3).toNat).length < 4 := by
    have : body.length + 8 < 8 + (wordBE l0 l1 l2 l3).toNat + 4 := hshort
    rw [List.length_drop]
    omega
  rw [frameChunk, hletters]
  split
  · contradiction
  · split
    · next hfield =>
      rw [hfield] at hbody
      simp only [List.length_cons] at hbody
      omega
    · rfl

/-- The crc field of a buffer long enough for one, at R93's offset. -/
theorem bytesBE_crc_slicedChunk {buf : List Byte} (h : 8 + (firstWord buf).toNat + 4 ≤ buf.length) :
    bytesBE (slicedChunk buf).crc = (buf.drop (8 + (firstWord buf).toNat)).take 4 :=
  bytesBE_firstWord (by rw [List.length_drop]; omega)

/-- A buffer long enough for the chunk at its head is that chunk encoded, and the bytes after it. -/
theorem serialize_slicedChunk_append {buf : List Byte} (h : 8 + (firstWord buf).toNat + 4 ≤ buf.length) :
    serialize (slicedChunk buf) ++ buf.drop (12 + (firstWord buf).toNat) = buf := by
  have hlength : bytesBE (slicedChunk buf).length = buf.take 4 := bytesBE_firstWord (by omega)
  have htag : tagField buf ++ buf.drop 8 = buf.drop 4 := List.drop_take_append_drop buf 4 4
  rw [serialize, hlength, bytesBE_crc_slicedChunk h, show 12 + (firstWord buf).toNat = 8 + (firstWord buf).toNat + 4 by omega]
  simp only [slicedChunk, List.append_assoc, List.drop_take_append_drop, htag, List.take_append_drop]

/-- The sliced chunk has the form the host asks for, if its type bytes are letters. -/
theorem wellFramed_slicedChunk {buf : List Byte} (h : 8 + (firstWord buf).toNat + 4 ≤ buf.length)
    (htag : (tagField buf).all isTagByte = true) : WellFramed (slicedChunk buf) where
  tag_length := by simp [slicedChunk, tagField]; omega
  tag_letters := htag
  length_eq := by simp [slicedChunk]; omega

/-- R114: a buffer that passes the host's part gives its fields and the bytes after them. -/
theorem frameChunk_of_whole {buf : List Byte} (h : 8 + (firstWord buf).toNat + 4 ≤ buf.length)
    (htag : (tagField buf).all isTagByte = true) :
    frameChunk buf = .ok (slicedChunk buf, buf.drop (12 + (firstWord buf).toNat)) := by
  have hframe := frameChunk_serialize (wellFramed_slicedChunk h htag) (buf.drop (12 + (firstWord buf).toNat))
  rwa [serialize_slicedChunk_append h] at hframe

/-- Settles O47: R114's three failures in their order, and otherwise the sliced chunk. -/
theorem hostFramingOrder : Obligations.HostFramingOrder := by
  unfold Obligations.HostFramingOrder
  intro buf n tag
  refine ⟨frameChunk_of_no_header, frameChunk_of_bad_tag, frameChunk_of_no_crc, fun hlen htag => ?_⟩
  exact ⟨slicedChunk buf, frameChunk_of_whole hlen htag, rfl, rfl, rfl, bytesBE_crc_slicedChunk hlen⟩

end Sys2Proof.Machine
end

section
/-!
PROOFS, 70_reset_and_hazards.md R130 to R132: the reset step. It is INIT with ILL cleared, an edge with `rst = 1` gives it
whatever else is presented, and it leaves nothing of what came before.
-/
namespace Sys2Proof.Machine

open Sys2Proof.Safety

/-- A reset leaves what INIT leaves of a state whose ILL is 0 (70_reset_and_hazards.md R130). -/
theorem applyReset_eq_startChecksum (s : State) : applyReset s = startChecksum { s with ill := false } := rfl

theorem crcOut_applyReset (s : State) : crcOut (applyReset s) = 0x00000000#32 := by
  rw [applyReset_eq_startChecksum, crcOut_startChecksum]

theorem statusOut_applyReset (s : State) : statusOut (applyReset s) = 0x0000#16 := by
  rw [applyReset_eq_startChecksum, statusOut_startChecksum]
  rfl

/-- A reset keeps nothing of the state but the stream yet to come. -/
theorem applyReset_congr {s t : State} (h : s.input = t.input) : applyReset s = applyReset t := by
  rw [applyReset, applyReset, h]

/-- No input touches what the host presents later. -/
theorem react_input {i : Input} {s t : State} (h : react i s = .next t) : t.input = s.input := by
  rcases react_cases h with ⟨-, rfl⟩ | ⟨w, -, rfl⟩
  · exact applyReset_input s
  · exact after_input (decode w) s

theorem reactAll_cons_of_next {i : Input} {s t : State} (h : react i s = .next t) (is : List Input) :
    reactAll (i :: is) s = reactAll is t := by
  simp only [reactAll, h]

/-- The inputs of the one host before a reset complete, and the reset then takes back all they did. -/
theorem reactAll_append_reset {is : List Input} (hhost : ∀ i ∈ is, fromHost i = true) (js : List Input) (s : State) :
    reactAll (is ++ .reset :: js) s = reactAll js (applyReset s) := by
  induction is generalizing s with
  | nil => exact reactAll_cons_of_next rfl js
  | cons i is ih =>
    obtain ⟨hi, his⟩ := List.forall_mem_cons.mp hhost
    obtain ⟨t, ht⟩ := react_next_of_fromHost hi s
    rw [List.cons_append, reactAll_cons_of_next ht, ih his, applyReset_congr (react_input ht)]

/-- Settles O54, by induction on the inputs before the reset. -/
theorem nothingSurvivesReset : Obligations.NothingSurvivesReset := by
  unfold Obligations.NothingSurvivesReset
  exact fun is js s hhost => reactAll_append_reset hhost js s

/-- Settles O1: the elements are `applyReset`'s, and INIT's state differs from it in ILL. -/
theorem resetStateValues : Obligations.ResetStateValues := by
  unfold Obligations.ResetStateValues
  intro s
  exact ⟨applyReset s, rfl, applyReset_acc s, applyReset_exp s, applyReset_expCnt s, applyReset_done s, applyReset_matched s,
    applyReset_ckerr s, applyReset_trunc s, applyReset_ovr s, applyReset_ill s, crcOut_applyReset s, applyReset_exp s,
    statusOut_applyReset s, exec_eq_after .init s, rfl⟩

theorem sampleEdge_reset {e : Edge} (hrst : e.rst = true) (s : State) : sampleEdge e s = some .reset := by
  simp [sampleEdge, hrst]

/-- Settles O2: the edge samples a reset, a step takes it as any other input, and no word clears ILL. -/
theorem resetWinsOverACommand : Obligations.ResetWinsOverACommand := by
  unfold Obligations.ResetWinsOverACommand
  refine ⟨fun e s hrst => clockEdge_of_some (sampleEdge_reset hrst s), fun s rest h => step_cons h, fun w s t hill h => ?_⟩
  rw [exec_next_iff.mp h, after_decode_ill, hill, Bool.true_or]

/-- Settles O4: R29's bits, the next state of each command and the reset hold of every state, so of a power-on state. -/
theorem anyPowerOnStateResets : Obligations.AnyPowerOnStateResets := by
  unfold Obligations.AnyPowerOnStateResets
  intro acc exp cnt done matched ckerr trunc ovr ill l s
  exact ⟨rfl, rfl, statusOut_done s, statusOut_matched s, statusOut_ckerr s, statusOut_trunc s, statusOut_ovr s,
    statusOut_ill s, statusOut_zero_low s, statusOut_expCnt s, statusOut_zero_high s,
    fun i => ⟨after i s, exec_eq_after i s⟩, rfl⟩

end Sys2Proof.Machine
end

section
/-!
PROOFS, 70_reset_and_hazards.md R136: how many commands the host issues for a chunk.
-/
namespace Sys2Proof.Machine

@[simp] theorem length_feeds (m : List Byte) : (feeds m).length = m.length := List.length_map ..

theorem length_expect32 (v : Word32) : (expect32 v).length = 4 := rfl

/-- VERIFY is one FEED per byte between INIT and the four EXPECTs and CHECK. -/
theorem length_verifyWords (m : List Byte) (v : Word32) : (verifyWords m v).length = m.length + 6 := by
  simp [verifyWords, length_expect32]

/-- GENERATE is INIT and one FEED per byte. -/
theorem length_generateWords (tag data : List Byte) : (generateWords tag data).length = tag.length + data.length + 1 := by
  simp [generateWords]

/-- Settles O56: the two lengths at a type of 4 bytes. -/
theorem commandCounts : Obligations.CommandCounts := by
  unfold Obligations.CommandCounts
  intro tag data v htag
  rw [length_verifyWords, length_generateWords, List.length_append, htag]
  constructor <;> omega

end Sys2Proof.Machine
end
